-- ==== Sys2Proof/Word.lean ====
section
/-! DEFINITION. The word types of the machine (00_scope.md R4, R5): all values are unsigned bit vectors. -/

namespace Sys2Proof

/-- A byte of memory, a general register or a timer (R11, R24). -/
abbrev Byte := BitVec 8

/-- A 16-bit quantity: the instruction word, `pc`, `I`, a stack entry (R13, R15, R16, R60). -/
abbrev Word := BitVec 16

/-- A 4-bit field of the instruction word (R61). -/
abbrev Nibble := BitVec 4

/-- The 12-bit address immediate `nnn` (R61, R68). -/
abbrev Addr12 := BitVec 12

/-- The index of a general register, 0 to 15; every value is a legal register (R11, R68). -/
abbrev Reg := Fin 16

end Sys2Proof
end

