-- ==== Sys2Proof/Syntax.lean ====
section
/-! DEFINITION. The instructions: one constructor per row of spec/opcode_table.json (30_encoding.md R69). -/

namespace Sys2Proof

/-- The 34 instructions of R69 and the no-op of its row 35. Operands are the fields of R61 that the row uses.
`shr` and `shl` carry the field `y` that their pattern `8xy6`, `8xyE` holds, which their handlers ignore (R128, R130).
`nop` carries the unassigned word itself, which its handler ignores (R86). -/
inductive Instr where
  /-- `00E0`, R170. -/
  | cls
  /-- `00EE`, R100. -/
  | ret
  /-- `1nnn`, R101. -/
  | jp (nnn : Addr12)
  /-- `Bnnn`, R103. -/
  | jpV0 (nnn : Addr12)
  /-- `2nnn`, R102. -/
  | call (nnn : Addr12)
  /-- `3xkk`, R104. -/
  | seImm (x : Reg) (kk : Byte)
  /-- `4xkk`, R105. -/
  | sneImm (x : Reg) (kk : Byte)
  /-- `5xy0`, R106. -/
  | seReg (x y : Reg)
  /-- `9xy0`, R107. -/
  | sneReg (x y : Reg)
  /-- `6xkk`, R120. -/
  | ldImm (x : Reg) (kk : Byte)
  /-- `7xkk`, R121. -/
  | addImm (x : Reg) (kk : Byte)
  /-- `8xy0`, R122. -/
  | ldReg (x y : Reg)
  /-- `8xy1`, R123. -/
  | orReg (x y : Reg)
  /-- `8xy2`, R124. -/
  | andReg (x y : Reg)
  /-- `8xy3`, R125. -/
  | xorReg (x y : Reg)
  /-- `8xy4`, R126. -/
  | addReg (x y : Reg)
  /-- `8xy5`, R127. -/
  | subReg (x y : Reg)
  /-- `8xy6`, R128. -/
  | shr (x y : Reg)
  /-- `8xy7`, R129. -/
  | subnReg (x y : Reg)
  /-- `8xyE`, R130. -/
  | shl (x y : Reg)
  /-- `Annn`, R150. -/
  | ldI (nnn : Addr12)
  /-- `Fx1E`, R151. -/
  | addI (x : Reg)
  /-- `Cxkk`, R131. -/
  | rnd (x : Reg) (kk : Byte)
  /-- `Dxyn`, R171. -/
  | drw (x y : Reg) (n : Nibble)
  /-- `Ex9E`, R180. -/
  | skp (x : Reg)
  /-- `ExA1`, R181. -/
  | sknp (x : Reg)
  /-- `Fx07`, R182. -/
  | ldVxDT (x : Reg)
  /-- `Fx15`, R183. -/
  | ldDTVx (x : Reg)
  /-- `Fx18`, R184. -/
  | ldSTVx (x : Reg)
  /-- `Fx0A`, R185. -/
  | ldVxK (x : Reg)
  /-- `Fx29`, R152. -/
  | ldF (x : Reg)
  /-- `Fx33`, R153. -/
  | ldB (x : Reg)
  /-- `Fx55`, R154. -/
  | stRegs (x : Reg)
  /-- `Fx65`, R155. -/
  | ldRegs (x : Reg)
  /-- any other word, R67, R86. -/
  | nop (word : Word)
deriving DecidableEq, Repr

end Sys2Proof
end

