-- ==== Sys2Proof/WellFormed.lean ====
section
/-! DEFINITION. When a term of `Instr` stands for words of the encoding. Register numbers and immediates are
bounded by their types; the one check left is that `nop` holds an unassigned word (30_encoding.md R67). -/

namespace Sys2Proof

/-- The unassigned words, as R67 lists them: `0??n` with n not in {0, E}; `8??n` with n in {8, 9, A, B, C, D, F};
`E??n` with n not in {1, E}; `F?kk` with kk not in {07, 0A, 15, 18, 1E, 29, 33, 55, 65}. -/
def unassigned (w : Word) : Bool :=
  let top : Nibble := w.extractLsb' 12 4
  let n : Nibble := w.extractLsb' 0 4
  let kk : Byte := w.extractLsb' 0 8
  (top == 0x0 && !([0x0, 0xE].contains n))
    || (top == 0x8 && [0x8, 0x9, 0xA, 0xB, 0xC, 0xD, 0xF].contains n)
    || (top == 0xE && !([0x1, 0xE].contains n))
    || (top == 0xF && !([0x07, 0x0A, 0x15, 0x18, 0x1E, 0x29, 0x33, 0x55, 0x65].contains kk))

/-- Well-formed: every term of the 34 instructions, and `nop` of an unassigned word (R67, R69, R86). -/
def Instr.wf : Instr → Bool
  | .nop w => unassigned w
  | .cls | .ret | .jp _ | .jpV0 _ | .call _ | .seImm _ _ | .sneImm _ _ | .seReg _ _ | .sneReg _ _ => true
  | .ldImm _ _ | .addImm _ _ | .ldReg _ _ | .orReg _ _ | .andReg _ _ | .xorReg _ _ => true
  | .addReg _ _ | .subReg _ _ | .shr _ _ | .subnReg _ _ | .shl _ _ => true
  | .ldI _ | .addI _ | .rnd _ _ | .drw _ _ _ | .skp _ | .sknp _ => true
  | .ldVxDT _ | .ldDTVx _ | .ldSTVx _ | .ldVxK _ | .ldF _ | .ldB _ | .stRegs _ | .ldRegs _ => true

end Sys2Proof
end

