-- ==== Sys2Proof/Decode.lean ====
section
/-! DEFINITION. Decoding (30_encoding.md R60 to R68, R71) and encoding. The decoder is the two-level dispatch of R62;
beside it stands the row table of R71, to be compared with it. -/

namespace Sys2Proof

/-- `op[15:12]` (R61). -/
def topOf (w : Word) : Nibble := w.extractLsb' 12 4

/-- `x = op[11:8]`, a register index (R61, R68). -/
def xOf (w : Word) : Reg := (w.extractLsb' 8 4).toFin

/-- `y = op[7:4]`, a register index (R61, R68). -/
def yOf (w : Word) : Reg := (w.extractLsb' 4 4).toFin

/-- `n = op[3:0]` (R61). -/
def nOf (w : Word) : Nibble := w.extractLsb' 0 4

/-- `kk = op[7:0]` (R61). -/
def kkOf (w : Word) : Byte := w.extractLsb' 0 8

/-- `nnn = op[11:0]` (R61). -/
def nnnOf (w : Word) : Addr12 := w.extractLsb' 0 12

/-- Secondary table 0, indexed by the low nibble (R64). -/
def decodeFamily0 (w : Word) : Instr :=
  match nOf w with
  | 0x0#4 => .cls
  | 0xE#4 => .ret
  | _ => .nop w

/-- Secondary table 8, indexed by the low nibble (R64). -/
def decodeFamily8 (w : Word) : Instr :=
  match nOf w with
  | 0x0#4 => .ldReg (xOf w) (yOf w)
  | 0x1#4 => .orReg (xOf w) (yOf w)
  | 0x2#4 => .andReg (xOf w) (yOf w)
  | 0x3#4 => .xorReg (xOf w) (yOf w)
  | 0x4#4 => .addReg (xOf w) (yOf w)
  | 0x5#4 => .subReg (xOf w) (yOf w)
  | 0x6#4 => .shr (xOf w) (yOf w)
  | 0x7#4 => .subnReg (xOf w) (yOf w)
  | 0xE#4 => .shl (xOf w) (yOf w)
  | _ => .nop w

/-- Secondary table E, indexed by the low nibble (R64). -/
def decodeFamilyE (w : Word) : Instr :=
  match nOf w with
  | 0x1#4 => .sknp (xOf w)
  | 0xE#4 => .skp (xOf w)
  | _ => .nop w

/-- Secondary table F, indexed by the low byte (R65). -/
def decodeFamilyF (w : Word) : Instr :=
  match kkOf w with
  | 0x07#8 => .ldVxDT (xOf w)
  | 0x0A#8 => .ldVxK (xOf w)
  | 0x15#8 => .ldDTVx (xOf w)
  | 0x18#8 => .ldSTVx (xOf w)
  | 0x1E#8 => .addI (xOf w)
  | 0x29#8 => .ldF (xOf w)
  | 0x33#8 => .ldB (xOf w)
  | 0x55#8 => .stRegs (xOf w)
  | 0x65#8 => .ldRegs (xOf w)
  | _ => .nop w

/-- The primary table, indexed by the top nibble (R62, R63). Total: every word selects exactly one handler (R67).
Alias words select the handler of their canonical pattern (R66, the spec's decision D28, log 10). -/
def decode (w : Word) : Instr :=
  match topOf w with
  | 0x0#4 => decodeFamily0 w
  | 0x1#4 => .jp (nnnOf w)
  | 0x2#4 => .call (nnnOf w)
  | 0x3#4 => .seImm (xOf w) (kkOf w)
  | 0x4#4 => .sneImm (xOf w) (kkOf w)
  | 0x5#4 => .seReg (xOf w) (yOf w)
  | 0x6#4 => .ldImm (xOf w) (kkOf w)
  | 0x7#4 => .addImm (xOf w) (kkOf w)
  | 0x8#4 => decodeFamily8 w
  | 0x9#4 => .sneReg (xOf w) (yOf w)
  | 0xA#4 => .ldI (nnnOf w)
  | 0xB#4 => .jpV0 (nnnOf w)
  | 0xC#4 => .rnd (xOf w) (kkOf w)
  | 0xD#4 => .drw (xOf w) (yOf w) (nOf w)
  | 0xE#4 => decodeFamilyE w
  | _ => decodeFamilyF w

/-- Why bytes are not an instruction. No word is refused (R67), so the one reason is a missing byte. -/
inductive DecodeError where
  /-- Fewer than the 2 bytes of an instruction (R60). Raised by `decodeBytes`; the fetch never meets it. Safe. -/
  | truncated
deriving DecidableEq, Repr

/-- The instruction word of two bytes, big-endian: the byte at the lower address is bits 15:8 (R42). -/
def wordOfBytes (hi lo : Byte) : Word := hi ++ lo

/-- The byte of a word stored at the lower address (R42). -/
def highByte (w : Word) : Byte := w.extractLsb' 8 8

/-- The byte of a word stored at the higher address (R42). -/
def lowByte (w : Word) : Byte := w.extractLsb' 0 8

/-- Decode the first instruction of a list of bytes and give back the rest (R42, R60). -/
def decodeBytes : List Byte → Except DecodeError (Instr × List Byte)
  | hi :: lo :: rest => .ok (decode (wordOfBytes hi lo), rest)
  | _ => .error .truncated

/-- The word whose bits the host numbers as spec/opcode_table.json does: the bits above `nbits` are 0. -/
def tableWord (nbits w : Nat) : Word := BitVec.ofNat 16 (w % 2 ^ nbits)

/-- The instruction the decoder reads from the bytes of a table word, laid out big-endian. -/
def decodeTableWord (nbits w : Nat) : Option Instr :=
  match decodeBytes [highByte (tableWord nbits w), lowByte (tableWord nbits w)] with
  | .ok (i, _) => some i
  | .error _ => none

/-- A register index as the 4-bit field that holds it. -/
def regField (x : Reg) : Nibble := BitVec.ofFin x

/-- Format A, `tnnn` (R61). -/
def formatA (t : Nibble) (nnn : Addr12) : Word := t ++ nnn

/-- Formats I and X, `txkk` (R61). -/
def formatI (t : Nibble) (x : Reg) (kk : Byte) : Word := t ++ (regField x ++ kk)

/-- Format R, `txyc` (R61). -/
def formatR (t : Nibble) (x y : Reg) (c : Nibble) : Word := t ++ (regField x ++ (regField y ++ c))

/-- The canonical word of an instruction (the patterns of R69). -/
def encode : Instr → Word
  | .cls => 0x00E0
  | .ret => 0x00EE
  | .jp nnn => formatA 0x1 nnn
  | .jpV0 nnn => formatA 0xB nnn
  | .call nnn => formatA 0x2 nnn
  | .seImm x kk => formatI 0x3 x kk
  | .sneImm x kk => formatI 0x4 x kk
  | .seReg x y => formatR 0x5 x y 0x0
  | .sneReg x y => formatR 0x9 x y 0x0
  | .ldImm x kk => formatI 0x6 x kk
  | .addImm x kk => formatI 0x7 x kk
  | .ldReg x y => formatR 0x8 x y 0x0
  | .orReg x y => formatR 0x8 x y 0x1
  | .andReg x y => formatR 0x8 x y 0x2
  | .xorReg x y => formatR 0x8 x y 0x3
  | .addReg x y => formatR 0x8 x y 0x4
  | .subReg x y => formatR 0x8 x y 0x5
  | .shr x y => formatR 0x8 x y 0x6
  | .subnReg x y => formatR 0x8 x y 0x7
  | .shl x y => formatR 0x8 x y 0xE
  | .ldI nnn => formatA 0xA nnn
  | .addI x => formatI 0xF x 0x1E
  | .rnd x kk => formatI 0xC x kk
  | .drw x y n => formatR 0xD x y n
  | .skp x => formatI 0xE x 0x9E
  | .sknp x => formatI 0xE x 0xA1
  | .ldVxDT x => formatI 0xF x 0x07
  | .ldDTVx x => formatI 0xF x 0x15
  | .ldSTVx x => formatI 0xF x 0x18
  | .ldVxK x => formatI 0xF x 0x0A
  | .ldF x => formatI 0xF x 0x29
  | .ldB x => formatI 0xF x 0x33
  | .stRegs x => formatI 0xF x 0x55
  | .ldRegs x => formatI 0xF x 0x65
  | .nop w => w

/-- A row of the opcode table: the bits the decoder looks at, their value, and the instruction of a word (R71). -/
structure DecodeRow where
  /-- `mask`. -/
  mask : Word
  /-- `match`. -/
  value : Word
  /-- The instruction, its operands taken from the fields of the word. -/
  instr : Word → Instr

/-- Rows CLS to ADD Vx, kk of the table (R66, R71). -/
def decodeRowsFlow : List DecodeRow :=
  [⟨0xF00F, 0x0000, fun _ => .cls⟩,
   ⟨0xF00F, 0x000E, fun _ => .ret⟩,
   ⟨0xF000, 0x1000, fun w => .jp (nnnOf w)⟩,
   ⟨0xF000, 0xB000, fun w => .jpV0 (nnnOf w)⟩,
   ⟨0xF000, 0x2000, fun w => .call (nnnOf w)⟩,
   ⟨0xF000, 0x3000, fun w => .seImm (xOf w) (kkOf w)⟩,
   ⟨0xF000, 0x4000, fun w => .sneImm (xOf w) (kkOf w)⟩,
   ⟨0xF000, 0x5000, fun w => .seReg (xOf w) (yOf w)⟩,
   ⟨0xF000, 0x9000, fun w => .sneReg (xOf w) (yOf w)⟩,
   ⟨0xF000, 0x6000, fun w => .ldImm (xOf w) (kkOf w)⟩,
   ⟨0xF000, 0x7000, fun w => .addImm (xOf w) (kkOf w)⟩]

/-- The rows of family 8 (R66, R71). -/
def decodeRowsAlu : List DecodeRow :=
  [⟨0xF00F, 0x8000, fun w => .ldReg (xOf w) (yOf w)⟩,
   ⟨0xF00F, 0x8001, fun w => .orReg (xOf w) (yOf w)⟩,
   ⟨0xF00F, 0x8002, fun w => .andReg (xOf w) (yOf w)⟩,
   ⟨0xF00F, 0x8003, fun w => .xorReg (xOf w) (yOf w)⟩,
   ⟨0xF00F, 0x8004, fun w => .addReg (xOf w) (yOf w)⟩,
   ⟨0xF00F, 0x8005, fun w => .subReg (xOf w) (yOf w)⟩,
   ⟨0xF00F, 0x8006, fun w => .shr (xOf w) (yOf w)⟩,
   ⟨0xF00F, 0x8007, fun w => .subnReg (xOf w) (yOf w)⟩,
   ⟨0xF00F, 0x800E, fun w => .shl (xOf w) (yOf w)⟩]

/-- Rows LD I, nnn to LD Vx, [I] (R66, R71). -/
def decodeRowsRest : List DecodeRow :=
  [⟨0xF000, 0xA000, fun w => .ldI (nnnOf w)⟩,
   ⟨0xF0FF, 0xF01E, fun w => .addI (xOf w)⟩,
   ⟨0xF000, 0xC000, fun w => .rnd (xOf w) (kkOf w)⟩,
   ⟨0xF000, 0xD000, fun w => .drw (xOf w) (yOf w) (nOf w)⟩,
   ⟨0xF00F, 0xE00E, fun w => .skp (xOf w)⟩,
   ⟨0xF00F, 0xE001, fun w => .sknp (xOf w)⟩,
   ⟨0xF0FF, 0xF007, fun w => .ldVxDT (xOf w)⟩,
   ⟨0xF0FF, 0xF015, fun w => .ldDTVx (xOf w)⟩,
   ⟨0xF0FF, 0xF018, fun w => .ldSTVx (xOf w)⟩,
   ⟨0xF0FF, 0xF00A, fun w => .ldVxK (xOf w)⟩,
   ⟨0xF0FF, 0xF029, fun w => .ldF (xOf w)⟩,
   ⟨0xF0FF, 0xF033, fun w => .ldB (xOf w)⟩,
   ⟨0xF0FF, 0xF055, fun w => .stRegs (xOf w)⟩,
   ⟨0xF0FF, 0xF065, fun w => .ldRegs (xOf w)⟩]

/-- The 34 instruction rows of spec/opcode_table.json in its order, without the catch-all (R71). -/
def decodeRows : List DecodeRow := decodeRowsFlow ++ decodeRowsAlu ++ decodeRowsRest

/-- R71: try the rows in order, take the first whose `(op & mask) == match`, and the no-op when none matches. -/
def decodeByRows (w : Word) : Instr :=
  match decodeRows.find? (fun row => w &&& row.mask == row.value) with
  | some row => row.instr w
  | none => .nop w

end Sys2Proof
end

