-- ==== Sys2Proof/Config.lean ====
section
/-! DEFINITION. The fixed parameters of this hardware (00_scope.md R4), the contents of memory at reset
(10_state.md R25, R29), and the one free value of the model, the byte stream of the random source. -/

namespace Sys2Proof.Config

/-- Memory is 4096 bytes, addresses 0x000 to 0xFFF (R4, R24). -/
abbrev memBytes : Nat := 0x1000

/-- Address of the font table (R4, R25). -/
abbrev fontBase : Nat := 0x050

/-- Program load and reset address (R4, R13). -/
abbrev programBase : Nat := 0x200

/-- Largest ROM, 4096 - 512 bytes (R4, R53). -/
abbrev maxRom : Nat := 3584

/-- The 80 font bytes, 16 glyphs of 5 rows, of R25.
PRESUMED by the spec itself (its decision D14): only the first byte is in the source document. Log 2. -/
def font : List Byte :=
  [0xF0, 0x90, 0x90, 0x90, 0xF0,  0x20, 0x60, 0x20, 0x20, 0x70,
   0xF0, 0x10, 0xF0, 0x80, 0xF0,  0xF0, 0x10, 0xF0, 0x10, 0xF0]
  ++
  [0x90, 0x90, 0xF0, 0x10, 0x10,  0xF0, 0x80, 0xF0, 0x10, 0xF0,
   0xF0, 0x80, 0xF0, 0x90, 0xF0,  0xF0, 0x10, 0x20, 0x40, 0x40]
  ++
  [0xF0, 0x90, 0xF0, 0x90, 0xF0,  0xF0, 0x90, 0xF0, 0x10, 0xF0,
   0xF0, 0x90, 0xF0, 0x90, 0x90,  0xE0, 0x90, 0xE0, 0x90, 0xE0]
  ++
  [0xF0, 0x80, 0x80, 0x80, 0xF0,  0xE0, 0x90, 0x90, 0x90, 0xE0,
   0xF0, 0x80, 0xF0, 0x80, 0xF0,  0xF0, 0x80, 0xF0, 0x80, 0x80]

/-- What memory holds at address `a` after reset and before any load or store: the font table at 0x050 to 0x09F,
zero elsewhere (R25, R29, R45; zeros are the spec's decision D13, log 1).
It is also what an address that the memory list does not name reads as (log 21). -/
def resetByte (a : Nat) : Byte :=
  if a < fontBase then 0 else font.getD (a - fontBase) 0

/-- FREE VALUE. The byte the random source yields to the `k`-th executed `Cxkk` when no byte of the input queue is
left (R30: "`rnd()` returns a byte 0 to 255 under no law"). It has no body, so nothing can be proved of it. Log 4. -/
opaque freeDraw : Nat → Byte

end Sys2Proof.Config
end

