-- ==== Sys2Proof/Machine/State.lean ====
section
/-! DEFINITION. The Machine State of 10_state.md as plain data, its value after reset, and the reasons a step can stop. -/

namespace Sys2Proof.Machine

/-- The listed bytes of the 4096-byte memory: those that differ from the reset contents `Config.resetByte`, at strictly
rising addresses (R24, R40; log 21). -/
abbrev Memory := List Host.Cell

/-- The 16 keys, `true` pressed (R20, R217). -/
abbrev Keypad := Vector Bool 16

/-- The 64 x 32 pixel grid, 32 rows of 64 pixels, row 0 at the top and column 0 at the left, `true` on
(R21, R172; one Boolean per pixel is the spec's decision D27, log 20). -/
abbrev Screen := Vector (Vector Bool 64) 32

/-- The fault causes of R201; code 7 is unused. -/
inductive FaultCause where
  /-- Code 0: no fault recorded. -/
  | none
  /-- Code 1: `pc > 0xFFE` at the start of a cycle. -/
  | fetchBounds
  /-- Code 2: `2nnn` with `sp = 16`. -/
  | stackOverflow
  /-- Code 3: `00EE` with `sp = 0`. -/
  | stackUnderflow
  /-- Code 4: a data access above 0xFFF by `Dxyn`, `Fx33`, `Fx55`, `Fx65`. -/
  | memBounds
  /-- Code 5: `Fx29` with `V[x] > 15`. -/
  | fontIndex
  /-- Code 6: `Ex9E` or `ExA1` with `V[x] > 15`. -/
  | keyIndex
deriving DecidableEq, Repr

/-- The 3-bit code of a cause (R26, R201). -/
def FaultCause.code : FaultCause → BitVec 3
  | .none => 0
  | .fetchBounds => 1
  | .stackOverflow => 2
  | .stackUnderflow => 3
  | .memBounds => 4
  | .fontIndex => 5
  | .keyIndex => 6

/-- The fault record of R26. -/
structure FaultRecord where
  /-- `fault.cause`. -/
  cause : FaultCause
  /-- `fault.pc`: the address of the faulting instruction. -/
  pc : Word
  /-- `fault.opcode`: its word, 0 for a fetch fault. -/
  opcode : Word
  /-- `fault.info`: cause-specific (R201). -/
  info : Word
deriving DecidableEq, Repr

/-- The empty fault record, the reset value of R26. -/
def FaultRecord.empty : FaultRecord := ⟨.none, 0, 0, 0⟩

/-- The Machine State of R10, and the model's own fields for the inputs (log 3, log 4). -/
structure State where
  /-- `V[0]` to `V[15]` (R11). -/
  v : Vector Byte 16
  /-- `memory` (R24). -/
  mem : Memory
  /-- `pc` (R13). -/
  pc : Word
  /-- `I` (R15). -/
  i : Word
  /-- `stack[0]` to `stack[15]` (R16). -/
  stack : Vector Word 16
  /-- `sp`, the next free slot, 8 bits wide (R17; width D29, log 19). -/
  sp : BitVec 8
  /-- `DT` (R18). -/
  dt : Byte
  /-- `ST` (R19). -/
  st : Byte
  /-- `key`, the snapshot of the current cycle (R20, R87). -/
  key : Keypad
  /-- `screen` (R21). -/
  screen : Screen
  /-- `opcode`, the last fetched word (R23). -/
  opcode : Word
  /-- `fault` (R26). -/
  fault : FaultRecord
  /-- MODEL'S OWN: the keypad arrays still to be presented, one per cycle, oldest first (R87, R217; log 3). -/
  keysIn : List Keypad
  /-- MODEL'S OWN: the random bytes still to be supplied, oldest first (R30; log 4). -/
  rndIn : List Byte
  /-- MODEL'S OWN: how many draws were taken; it indexes `Config.freeDraw` (R30; log 4). -/
  draws : Nat
deriving DecidableEq, Repr

/-- Why a step stops with a fault of the MODEL. The hardware's own faults are next states with a fault record (log 6). -/
inductive Fault where
  /-- Raised by `2nnn` and `00EE` when `sp` is above 16, so that the stack entry they name does not exist.
  R17: "overflow/underflow beyond 16 entries or below 0 is undefined behavior"; no run reaches such an `sp`.
  Safe (log 7). -/
  | stackPointerOutOfRange
deriving DecidableEq, Repr

/-- Why a step refuses an instruction. -/
inductive Refusal where
  /-- An instruction whose meaning is not written yet; raised by no arm of `exec`. Safe. -/
  | notModelled (mnemonic : String)
deriving DecidableEq, Repr

/-- The machine right after reset (R29, R230): `pc = 0x200`, `sp = 0`, the font loaded (memory as `Config.resetByte`),
all else zero, off or not pressed (the spec's decision D13, log 1), no input waiting (log 3, log 4). -/
def State.reset : State where
  v := Vector.replicate 16 0
  mem := []
  pc := 0x0200
  i := 0
  stack := Vector.replicate 16 0
  sp := 0
  dt := 0
  st := 0
  key := Vector.replicate 16 false
  screen := Vector.replicate 32 (Vector.replicate 64 false)
  opcode := 0
  fault := FaultRecord.empty
  keysIn := []
  rndIn := []
  draws := 0

end Sys2Proof.Machine
end

