-- ==== Sys2Proof/Machine/Ops.lean ====
section
/-! DEFINITION. The named operations over memory, registers, stack, screen and inputs, and taking a fault. -/

namespace Sys2Proof.Machine

/-- The answer of a meaning and of a step. -/
abbrev Result := Host.Outcome State Fault Refusal

/-! ### Memory (20_memory.md) -/

/-- The canonical form of the memory list: addresses strictly rising and inside memory, and no cell equal to what an
unlisted address reads as (log 21). -/
abbrev Memory.wf (m : Memory) : Prop :=
  m.Pairwise (fun c d => c.1 < d.1) ∧ ∀ c ∈ m, c.1 < Config.memBytes ∧ c.2 ≠ Config.resetByte c.1

/-- The byte at address `a` (R8, R48): the listed one, else the reset contents. -/
def Memory.read : Memory → Nat → Byte
  | [], a => Config.resetByte a
  | c :: m, a => if c.1 = a then c.2 else Memory.read m a

/-- Put a cell before the cells of `m`, unless it equals what the address reads as unlisted. -/
def Memory.keep (a : Nat) (b : Byte) (m : Memory) : Memory :=
  if b = Config.resetByte a then m else (a, b) :: m

/-- Store the byte `b` at address `a` (R8, R48), keeping the canonical form. -/
def Memory.write : Memory → Nat → Byte → Memory
  | [], a, b => Memory.keep a b []
  | c :: m, a, b =>
    if c.1 < a then c :: Memory.write m a b
    else if c.1 = a then Memory.keep a b m
    else Memory.keep a b (c :: m)

/-- The `n` bytes from address `a` on, in ascending address order (R43). -/
def Memory.readBytes (m : Memory) : Nat → Nat → List Byte
  | _, 0 => []
  | a, n + 1 => Memory.read m a :: Memory.readBytes m (a + 1) n

/-- Store bytes from address `a` on, in ascending address order (R43). -/
def Memory.writeBytes (m : Memory) : Nat → List Byte → Memory
  | _, [] => m
  | a, b :: bs => Memory.writeBytes (Memory.write m a b) (a + 1) bs

/-! ### Registers -/

/-- Read `V[x]` (R11). -/
def State.reg (s : State) (x : Reg) : Byte := s.v[x]

/-- `V[x] <- b` (R6, R11). -/
def State.setReg (s : State) (x : Reg) (b : Byte) : State := { s with v := s.v.set x b }

/-- Registers `V[0]` to `V[x]` in ascending order, the implicit operands of `Fx55` (R11, R154). -/
def State.regsUpTo (s : State) (x : Reg) : List Byte := s.v.toList.take (x.val + 1)

/-- The registers with `V[k]` set to `f k` for `k` from 0 to `x`, the others unchanged (R155). -/
def registersUpTo (v : Vector Byte 16) (x : Reg) (f : Nat → Byte) : Vector Byte 16 :=
  Vector.ofFn fun k : Reg => if k.val ≤ x.val then f k.val else v[k]

/-- `V[k] <- f k` for `k` from 0 to `x` (R155). -/
def State.setRegsUpTo (s : State) (x : Reg) (f : Nat → Byte) : State :=
  { s with v := registersUpTo s.v x f }

/-! ### Faults (60_exceptions.md section 1) -/

/-- Write the fault record and nothing else (R203). -/
def State.recordFault (s : State) (cause : FaultCause) (pc opcode info : Word) : State :=
  { s with fault := ⟨cause, pc, opcode, info⟩ }

/-- `raise CAUSE(info)` inside a handler (R8, R203). The handler runs after the advance, so the instruction's own
address is `pc - 2`, and `opcode` holds its word. The handler has written nothing before it raises; the cycle then
discards the advance and the latch (`endCycle`). Log 5, log 6. -/
def raise (cause : FaultCause) (info : Word) (s : State) : Result :=
  .next (s.recordFault cause (s.pc - 2) s.opcode info)

/-- `raise FETCH_BOUNDS(pc)` of the fetch: `pc` is not advanced and no word was fetched (R81, R201, R203). -/
def raiseFetchBounds (s : State) : Result :=
  .next (s.recordFault .fetchBounds s.pc 0 s.pc)

/-- The host's `reset` event (R230, R205): from any state, halted ones included, the state of R29.
It is the only way out of the halted state, and the nearest this hardware has to a return from a fault. -/
def applyReset (_ : State) : State := State.reset

/-! ### The call stack (R16, R17) -/

/-- `stack[sp] <- w`, then `sp <- sp + 1` (R102); for `sp` below 16. -/
def State.push (s : State) (w : Word) : State :=
  { s with stack := s.stack.setIfInBounds s.sp.toNat w, sp := s.sp + 1 }

/-- `stack[k]`, where it exists (R16). -/
def State.stackEntry (s : State) (k : Nat) : Option Word := s.stack[k]?

/-! ### The screen (44_display.md) -/

/-- The pixel in column `px` and row `py` (R172). -/
def Screen.at (scr : Screen) (px : Fin 64) (py : Fin 32) : Bool := scr[py][px]

/-- Invert the pixel in column `px` and row `py` (R171). -/
def Screen.invert (scr : Screen) (px : Fin 64) (py : Fin 32) : Screen :=
  scr.set py (scr[py].set px (!scr[py][px]))

/-- All 2048 pixels off (R170). -/
def Screen.dark : Screen := Vector.replicate 32 (Vector.replicate 64 false)

/-- A column number modulo 64 (R171). -/
def wrapColumn (c : Nat) : Fin 64 := ⟨c % 64, Nat.mod_lt _ (by decide)⟩

/-- A row number modulo 32 (R171). -/
def wrapRow (r : Nat) : Fin 32 := ⟨r % 32, Nat.mod_lt _ (by decide)⟩

/-- A draw in progress: the screen and the collision flag so far (R171). -/
abbrev Drawing := Screen × Bool

/-- One sprite bit of 1 on a pixel: the flag is set if the pixel was on, and the pixel is inverted (R171). -/
def drawPixel (px : Fin 64) (py : Fin 32) (d : Drawing) : Drawing :=
  (d.1.invert px py, d.2 || d.1.at px py)

/-- One sprite byte on row `py` from column `X` on, most significant bit leftmost (R171, R172). -/
def drawByte (b : Byte) (X : Nat) (py : Fin 32) (d : Drawing) : Drawing :=
  (List.range 8).foldl (fun d c => if b.getLsbD (7 - c) then drawPixel (wrapColumn (X + c)) py d else d) d

/-- The sprite bytes from sprite row `r` on, at start coordinates `X`, `Y`, top to bottom (R171). -/
def drawRows (X Y : Nat) : Nat → List Byte → Drawing → Drawing
  | _, [], d => d
  | r, b :: bs, d => drawRows X Y (r + 1) bs (drawByte b X (wrapRow (Y + r)) d)

/-! ### The inputs (R30, R87) -/

/-- The keypad array of this cycle: the next one presented, or the last snapshot when nothing new was (R87, log 3). -/
def State.presentedKeys (s : State) : Keypad := s.keysIn.headD s.key

/-- `key <- keys` (R80, R87): the snapshot at the start of a cycle. -/
def State.sampleKeys (s : State) : State :=
  { s with key := s.presentedKeys, keysIn := s.keysIn.tail }

/-- `rnd()`: the next byte of the random source, the free value of the next draw when none waits (R30, log 4). -/
def State.drawnByte (s : State) : Byte := s.rndIn.headD (Config.freeDraw s.draws)

/-- The draw is consumed (R30). -/
def State.consumeDraw (s : State) : State := { s with rndIn := s.rndIn.tail, draws := s.draws + 1 }

end Sys2Proof.Machine
end

