-- ==== Sys2Proof/Machine/Cycle.lean ====
section
/-! DEFINITION. One cycle around the handlers (40_cycle_dispatch.md R80 to R85, 60_exceptions.md R203, R204). -/

namespace Sys2Proof.Machine

/-- `MemRead(pc, 2)`: the word at `pc`, big-endian, from memory as it is now (R42, R52, R81). -/
def State.fetchWord (s : State) : Word :=
  wordOfBytes (Memory.read s.mem s.pc.toNat) (Memory.read s.mem (s.pc.toNat + 1))

/-- Whether both bytes of the instruction at `pc` lie inside memory, `pc <= 0xFFE` (R46, R81). -/
def State.fetchInRange (s : State) : Bool := decide (s.pc.toNat ≤ 0xFFE)

/-- `opcode <- op; pc <- pc + 2` (R81, R82): the state a handler finds. -/
def State.latch (s : State) : State := { s with opcode := s.fetchWord, pc := s.pc + 2 }

/-- One timer, decremented by 1 unless it is 0 (R84). -/
def countDown (t : Byte) : Byte := if t = 0 then 0 else t - 1

/-- The timer decrement after the handler (R84). -/
def State.tickTimers (s : State) : State := { s with dt := countDown s.dt, st := countDown s.st }

/-- The end of a cycle that began (after the key snapshot) in `before`: the timers count, unless the handler raised;
then every write of the cycle is discarded and only the fault record is kept (R80, R203). -/
def endCycle (before : State) : Result → Result
  | .next t => if t.fault.cause = .none then .next t.tickTimers else .next { before with fault := t.fault }
  | .fault r => .fault r
  | .refused r => .refused r

/-- The cycle from the key snapshot on (R80). -/
def runningCycle (exec : Instr → State → Result) (s : State) : Result :=
  if s.fetchInRange then endCycle s (exec (decode s.fetchWord) s.latch) else raiseFetchBounds s

/-- `Cycle` (R80) over the dispatch `exec`: a halted core changes nothing (R85, R204). -/
def cycle (exec : Instr → State → Result) (s : State) : Result :=
  if s.fault.cause = .none then runningCycle exec s.sampleKeys else .next s

/-- `s` made ready to fetch: running, and `pc` inside memory (0x200 where it is not). The state itself where it is
ready. For `placeWord` only (log 18). -/
def State.readyToFetch (s : State) : State :=
  { s with
    fault := if s.fault.cause = .none then s.fault else FaultRecord.empty
    pc := if s.fetchInRange then s.pc else BitVec.ofNat 16 Config.programBase }

/-- `s` with the word of an opcode-table row stored at `pc`, big-endian (R42), so that the next cycle runs it (log 18). -/
def placeWord (s : State) (nbits w : Nat) : State :=
  let r := s.readyToFetch
  { r with mem := Memory.writeBytes r.mem r.pc.toNat [highByte (tableWord nbits w), lowByte (tableWord nbits w)] }

end Sys2Proof.Machine
end

