-- ==== Sys2Proof/Machine/Flags.lean ====
section
/-! DEFINITION. The values of the one flag `V[15]` (10_state.md R12, 42_alu.md R126 to R132), and writing a result with
its flag (40_cycle_dispatch.md R89). -/

namespace Sys2Proof.Machine

/-- A flag is written as the byte 0 or 1 (R12). -/
def flagByte (f : Bool) : Byte := if f then 1 else 0

/-- Carry of an 8-bit addition: the sum as a natural number exceeds 255 (R126, R132). -/
def carry (a b : Byte) : Bool := decide (255 < a.toNat + b.toNat)

/-- The flag of a subtraction: the minuend is strictly greater (R127, R129, R132; equal operands give 0, C8). -/
def greater (a b : Byte) : Bool := decide (b.toNat < a.toNat)

/-- The bit a right shift drops (R128). -/
def lowBit (a : Byte) : Bool := a.getLsbD 0

/-- The bit a left shift drops (R130). -/
def highBit (a : Byte) : Bool := a.getLsbD 7

/-- The register that holds the flag, `V[15]` (R12). -/
def flagReg : Reg := 15

/-- `V[15] <- flag` (R12). -/
def State.setFlag (s : State) (f : Bool) : State := s.setReg flagReg (flagByte f)

/-- `V[x] <- result`, then `V[15] <- flag`: for `x = 15` the flag is what the register keeps
(R89, the spec's decision D11, log 8). -/
def State.setResultAndFlag (s : State) (x : Reg) (r : Byte) (f : Bool) : State := (s.setReg x r).setFlag f

end Sys2Proof.Machine
end

