-- ==== Sys2Proof/Machine/Alu.lean ====
section
/-! DEFINITION. Register load, arithmetic and logic (42_alu.md). All operands are read before any write (R88). -/

namespace Sys2Proof.Machine

/-- `6xkk` LD (R120). -/
def execLdImm (x : Reg) (kk : Byte) (s : State) : Result := .next (s.setReg x kk)

/-- `7xkk` ADD (R121): modulo 256, no flag. -/
def execAddImm (x : Reg) (kk : Byte) (s : State) : Result := .next (s.setReg x (s.reg x + kk))

/-- `8xy0` LD (R122; destination D24, log 14). -/
def execLdReg (x y : Reg) (s : State) : Result := .next (s.setReg x (s.reg y))

/-- `8xy1` OR (R123): no flag. -/
def execOrReg (x y : Reg) (s : State) : Result := .next (s.setReg x (s.reg x ||| s.reg y))

/-- `8xy2` AND (R124): no flag. -/
def execAndReg (x y : Reg) (s : State) : Result := .next (s.setReg x (s.reg x &&& s.reg y))

/-- `8xy3` XOR (R125): no flag. -/
def execXorReg (x y : Reg) (s : State) : Result := .next (s.setReg x (s.reg x ^^^ s.reg y))

/-- `8xy4` ADD (R126): the sum modulo 256, VF the carry. -/
def execAddReg (x y : Reg) (s : State) : Result :=
  .next (s.setResultAndFlag x (s.reg x + s.reg y) (carry (s.reg x) (s.reg y)))

/-- `8xy5` SUB (R127): VF is 1 exactly when `V[x] > V[y]`. -/
def execSubReg (x y : Reg) (s : State) : Result :=
  .next (s.setResultAndFlag x (s.reg x - s.reg y) (greater (s.reg x) (s.reg y)))

/-- `8xy6` SHR (R128): `V[x]` shifted in place, VF the dropped bit; `V[y]` is not read. -/
def execShr (x _y : Reg) (s : State) : Result :=
  .next (s.setResultAndFlag x (s.reg x >>> 1) (lowBit (s.reg x)))

/-- `8xy7` SUBN (R129): VF is 1 exactly when `V[y] > V[x]`. -/
def execSubnReg (x y : Reg) (s : State) : Result :=
  .next (s.setResultAndFlag x (s.reg y - s.reg x) (greater (s.reg y) (s.reg x)))

/-- `8xyE` SHL (R130): `V[x]` shifted in place, VF the dropped bit; `V[y]` is not read. -/
def execShl (x _y : Reg) (s : State) : Result :=
  .next (s.setResultAndFlag x (s.reg x <<< 1) (highBit (s.reg x)))

/-- `Cxkk` RND (R131): one draw AND `kk` (the draw is free, D16, log 4). -/
def execRnd (x : Reg) (kk : Byte) (s : State) : Result :=
  .next (s.consumeDraw.setReg x (s.drawnByte &&& kk))

end Sys2Proof.Machine
end

