-- ==== Sys2Proof/Machine/Operands.lean ====
section
/-! DEFINITION. Every operand form of the instructions (30_encoding.md R68, 43_index_memory.md R156) and the skip of
41_flow.md R108. Register operands are `State.reg`, 8-bit immediates are used as they stand. -/

namespace Sys2Proof.Machine

/-- `zext_16(nnn)` (R68). -/
def address (nnn : Addr12) : Word := nnn.zeroExtend 16

/-- `zext_16(b)` of a byte (R5). -/
def wordOfByte (b : Byte) : Word := b.zeroExtend 16

/-- The effective address `I + k`, a natural number that does not wrap (R156). -/
def State.dataAddr (s : State) (k : Nat) : Nat := s.i.toNat + k

/-- Whether the `len` bytes from `I` on lie inside memory; no byte always does (R46, R171). -/
def State.dataInRange (s : State) (len : Nat) : Bool :=
  len == 0 || decide (s.i.toNat + len ≤ Config.memBytes)

/-- `max(I, 0x1000)`: the lowest address of the access that is out of range (R46, R153). -/
def State.lowestBadAddr (s : State) : Word := if 0xFFF < s.i.toNat then s.i else 0x1000

/-- `raise MEM_BOUNDS(max(I, 0x1000))` (R46, R153, R154, R155, R171). -/
def raiseMemBounds (s : State) : Result := raise .memBounds s.lowestBadAddr s

/-- The skip: `pc <- pc + 2` on top of the advance if the condition holds (R108). -/
def State.skipIf (s : State) (cond : Bool) : State := if cond then { s with pc := s.pc + 2 } else s

/-- The value of key `k` of the snapshot, where the keypad has it (R20). -/
def State.keyDown (s : State) (k : Nat) : Option Bool := s.key[k]?

/-- The lowest-indexed pressed key (R185): the scan of keys 0 to 15 in ascending order. -/
def State.lowestKey (s : State) : Option Reg := (List.finRange 16).find? fun k => s.key[k]

/-- The three decimal digits of a byte, hundreds first (R153). -/
def bcdDigits (b : Byte) : List Byte :=
  [BitVec.ofNat 8 (b.toNat / 100), BitVec.ofNat 8 (b.toNat / 10 % 10), BitVec.ofNat 8 (b.toNat % 10)]

/-- The address of glyph `d` of the font table, `0x0050 + 5 * d` (R25, R152). -/
def glyphAddr (d : Byte) : Word := BitVec.ofNat 16 (Config.fontBase + 5 * d.toNat)

end Sys2Proof.Machine
end

