-- ==== Sys2Proof/Machine/Display.lean ====
section
/-! DEFINITION. The display instructions, the only writers of the screen (44_display.md). -/

namespace Sys2Proof.Machine

/-- `00E0` CLS (R170). -/
def execCls (s : State) : Result := .next { s with screen := Screen.dark }

/-- The draw of R171 with its operands read: sprite bytes at `(V[x] mod 64, V[y] mod 32)`, the flag cleared first.
The coordinates are read before VF is written (R88, the spec's decision D12, log 9). -/
def State.sprite (s : State) (x y : Reg) (n : Nibble) : Drawing :=
  drawRows ((s.reg x).toNat % 64) ((s.reg y).toNat % 32) 0
    (Memory.readBytes s.mem (s.dataAddr 0) n.toNat) (s.screen, false)

/-- `Dxyn` DRW (R171): `n = 0` touches no memory and no pixel and clears VF (D26, log 20). -/
def execDrw (x y : Reg) (n : Nibble) (s : State) : Result :=
  if s.dataInRange n.toNat then
    .next (State.setFlag { s with screen := (s.sprite x y n).1 } (s.sprite x y n).2)
  else raiseMemBounds s

end Sys2Proof.Machine
end

