-- ==== Sys2Proof/Machine/Flow.lean ====
section
/-! DEFINITION. Control transfer (41_flow.md). In every meaning `pc` is the advanced value (R82). -/

namespace Sys2Proof.Machine

/-- `00EE` RET (R100). An `sp` above 16 names no stack entry: a stop of the model that no run reaches (log 7). -/
def execRet (s : State) : Result :=
  if s.sp = 0 then raise .stackUnderflow 0 s
  else
    match s.stackEntry (s.sp.toNat - 1) with
    | some target => .next { s with sp := s.sp - 1, pc := target }
    | none => .fault .stackPointerOutOfRange

/-- `1nnn` JP (R101). -/
def execJp (nnn : Addr12) (s : State) : Result := .next { s with pc := address nnn }

/-- `Bnnn` JP V0 (R103): a 16-bit sum with no masking. -/
def execJpV0 (nnn : Addr12) (s : State) : Result :=
  .next { s with pc := wordOfByte (s.reg 0) + address nnn }

/-- `2nnn` CALL (R102): push the advanced `pc`, jump. An `sp` above 16 names no stack entry (log 7). -/
def execCall (nnn : Addr12) (s : State) : Result :=
  if s.sp = 16 then raise .stackOverflow 16 s
  else if s.sp.toNat < 16 then .next { s.push s.pc with pc := address nnn }
  else .fault .stackPointerOutOfRange

/-- `3xkk` SE (R104; pairing D24, log 14). -/
def execSeImm (x : Reg) (kk : Byte) (s : State) : Result := .next (s.skipIf (s.reg x == kk))

/-- `4xkk` SNE (R105; pairing D24, log 14). -/
def execSneImm (x : Reg) (kk : Byte) (s : State) : Result := .next (s.skipIf (s.reg x != kk))

/-- `5xy0` SE (R106; pairing D24, log 14). -/
def execSeReg (x y : Reg) (s : State) : Result := .next (s.skipIf (s.reg x == s.reg y))

/-- `9xy0` SNE (R107; pairing D24, log 14). -/
def execSneReg (x y : Reg) (s : State) : Result := .next (s.skipIf (s.reg x != s.reg y))

end Sys2Proof.Machine
end

