-- ==== Sys2Proof/Machine/IndexMemory.lean ====
section
/-! DEFINITION. The index register and the loads and stores through it (43_index_memory.md). The whole range of an
access is checked before anything is written (R46), and no access changes `I` (R156; D19, log 15). -/

namespace Sys2Proof.Machine

/-- `Annn` LD I (R150). -/
def execLdI (nnn : Addr12) (s : State) : Result := .next { s with i := address nnn }

/-- `Fx1E` ADD I (R151): modulo 65536, no flag (D18, log 15). -/
def execAddI (x : Reg) (s : State) : Result := .next { s with i := s.i + wordOfByte (s.reg x) }

/-- `Fx29` LD F (R152): the address of a glyph; FONT_INDEX above 15 (D8, log 13). -/
def execLdF (x : Reg) (s : State) : Result :=
  if 15 < (s.reg x).toNat then raise .fontIndex (wordOfByte (s.reg x)) s
  else .next { s with i := glyphAddr (s.reg x) }

/-- `Fx33` LD B (R153): three decimal digits, hundreds at `I`. -/
def execLdB (x : Reg) (s : State) : Result :=
  if s.dataInRange 3 then .next { s with mem := Memory.writeBytes s.mem (s.dataAddr 0) (bcdDigits (s.reg x)) }
  else raiseMemBounds s

/-- `Fx55` LD [I], Vx (R154): `V[0]` to `V[x]` by register index (C4). -/
def execStRegs (x : Reg) (s : State) : Result :=
  if s.dataInRange (x.val + 1) then
    .next { s with mem := Memory.writeBytes s.mem (s.dataAddr 0) (s.regsUpTo x) }
  else raiseMemBounds s

/-- `Fx65` LD Vx, [I] (R155): `V[0]` to `V[x]` by register index (C4). -/
def execLdRegs (x : Reg) (s : State) : Result :=
  if s.dataInRange (x.val + 1) then .next (s.setRegsUpTo x fun k => Memory.read s.mem (s.dataAddr k))
  else raiseMemBounds s

end Sys2Proof.Machine
end

