-- ==== Sys2Proof/Machine/KeypadTimers.lean ====
section
/-! DEFINITION. Keypad and timer instructions (45_keypad_timers.md). `key` is the snapshot of the cycle (R87), `pc` the
advanced value (R82), and the timers are those before the cycle's decrement (R84). -/

namespace Sys2Proof.Machine

/-- `Ex9E` SKP (R180): KEY_INDEX above 15 (D9, log 13). -/
def execSkp (x : Reg) (s : State) : Result :=
  match s.keyDown (s.reg x).toNat with
  | some down => .next (s.skipIf down)
  | none => raise .keyIndex (wordOfByte (s.reg x)) s

/-- `ExA1` SKNP (R181): KEY_INDEX above 15 (D9, log 13). -/
def execSknp (x : Reg) (s : State) : Result :=
  match s.keyDown (s.reg x).toNat with
  | some down => .next (s.skipIf (!down))
  | none => raise .keyIndex (wordOfByte (s.reg x)) s

/-- `Fx07` LD Vx, DT (R182; pairing D24, log 14). -/
def execLdVxDT (x : Reg) (s : State) : Result := .next (s.setReg x s.dt)

/-- `Fx15` LD DT, Vx (R183; pairing D24, log 14). -/
def execLdDTVx (x : Reg) (s : State) : Result := .next { s with dt := s.reg x }

/-- `Fx18` LD ST, Vx (R184; pairing D24, log 14). -/
def execLdSTVx (x : Reg) (s : State) : Result := .next { s with st := s.reg x }

/-- `Fx0A` LD Vx, K (R185): the lowest pressed key, or back to this instruction's own address. -/
def execLdVxK (x : Reg) (s : State) : Result :=
  match s.lowestKey with
  | some k => .next (s.setReg x (BitVec.ofNat 8 k.val))
  | none => .next { s with pc := s.pc - 2 }

end Sys2Proof.Machine
end

