-- ==== Sys2Proof/Machine/Noop.lean ====
section
/-! DEFINITION. The handler of every unassigned word (40_cycle_dispatch.md R86). -/

namespace Sys2Proof.Machine

/-- NOP: no state change; the word is ignored (R67, R86; the spec's decision D10, log 11). -/
def execNop (_ : Word) (s : State) : Result := .next s

end Sys2Proof.Machine
end

