-- ==== Sys2Proof/Machine/Step.lean ====
section
/-! DEFINITION. One step is one `Cycle` (40_cycle_dispatch.md R80); what it does is in Cycle.lean. -/

namespace Sys2Proof.Machine

/-- One invocation of `Cycle` (R80, R85). -/
def step (s : State) : Host.Outcome State Fault Refusal := cycle exec s

/-- `s` with a table word placed where the next step fetches (log 18). -/
def State.withFetchWord (s : State) (nbits w : Nat) : State := placeWord s nbits w

end Sys2Proof.Machine
end

