-- ==== Sys2Proof/Machine/Ports.lean ====
section
/-! DEFINITION. The host's ports (60_exceptions.md R211, R212, R216, R217; 20_memory.md R53). They act between cycles.
The `cycle` port is `step`, the `reset` port `applyReset`, the `fault` port the field `fault`. -/

namespace Sys2Proof.Machine

/-- `rom_load` (R53): byte `k` of the image goes to `memory[0x200 + k]`; an image above 3584 bytes is refused and
nothing is written (D20, log 18). -/
def loadRom (rom : List Byte) (s : State) : Option State :=
  if rom.length ≤ Config.maxRom then some { s with mem := Memory.writeBytes s.mem Config.programBase rom } else none

/-- The machine a program starts on: reset, then the load (R231). -/
def boot (rom : List Byte) : Option State := loadRom rom State.reset

/-- The input source presents one more keypad array, for the first cycle that has none yet (R87, R217; log 3). -/
def presentKeys (keys : Keypad) (s : State) : State := { s with keysIn := s.keysIn ++ [keys] }

/-- The random source supplies one more byte (R30, R212; log 4). -/
def supplyRandom (b : Byte) (s : State) : State := { s with rndIn := s.rndIn ++ [b] }

/-- The 32-bit word of a pixel: all ones for on, all zeros for off (R21, R216). -/
def pixelWord (on : Bool) : BitVec 32 := if on then 0xFFFFFFFF else 0x00000000

/-- `screen` out: word `k` of the 2048-word row-major buffer (R172, R216). -/
def displayWord (s : State) (k : Fin 2048) : BitVec 32 :=
  pixelWord (s.screen.at ⟨k.val % 64, by omega⟩ ⟨k.val / 64, by omega⟩)

/-- The whole display buffer (R216). -/
def displayBuffer (s : State) : List (BitVec 32) := List.ofFn (displayWord s)

/-- `sound` out: the value of `ST` (R211). -/
def soundOut (s : State) : Byte := s.st

end Sys2Proof.Machine
end

