-- ==== Sys2Proof/Safety.lean ====
section
/-! DEFINITION. What counts as a safe run, in the terms claims use: the running and halted machine (60_exceptions.md R204),
the ends of a run (70_reset_and_hazards.md R234), and the invariant every step keeps. -/

namespace Sys2Proof.Machine

/-- No fault is recorded, so a cycle executes an instruction (R85, R204). -/
abbrev State.Running (s : State) : Prop := s.fault.cause = .none

/-- A fault is recorded: no cycle changes anything, and the run did not end well (R204, R234(1)). -/
abbrev State.Halted (s : State) : Prop := s.fault.cause ≠ .none

/-- Parked (R234(3)): a running machine whose next instruction is `1nnn` at address `nnn`. -/
abbrev State.Parked (s : State) : Prop :=
  s.Running ∧ s.fetchInRange = true ∧ ∃ nnn : Addr12, decode s.fetchWord = .jp nnn ∧ nnn.zeroExtend 16 = s.pc

/-- The state after `n` cycles is `t` (R234(2)). -/
def Reaches (n : Nat) (s t : State) : Prop :=
  match n with
  | 0 => s = t
  | n + 1 => ∃ u, step s = .next u ∧ Reaches n u t

/-- The sprite bit that a draw at start coordinates `X`, `Y` lands on the pixel in column `px` and row `py`, the pixel
being `c` columns to the right of the start and `r` rows below it, each counted with its own wrap-around
(R171: "Per-pixel wraparound"); `false` outside the sprite. -/
def spriteBit (sprite : List Byte) (X Y : Nat) (px : Fin 64) (py : Fin 32) : Bool :=
  let c := (px.val + 64 - X % 64) % 64
  let r := (py.val + 32 - Y % 32) % 32
  decide (c < 8) && decide (r < sprite.length) && (sprite.getD r 0).getLsbD (7 - c)

/-- What every cycle keeps, of states reached and unreached alike (log 23). -/
structure State.Inv (s : State) : Prop where
  /-- The memory list is canonical (log 21). -/
  memory : s.mem.wf
  /-- `sp` never leaves 0 to 16 (R17, R27(b)). -/
  stackPointer : s.sp.toNat ≤ 16
  /-- No stack entry is above 0x1000 (R100). -/
  stackEntries : ∀ k : Fin 16, s.stack[k].toNat ≤ 0x1000
  /-- The largest `pc` any rule produces is 0x10FE (R14). -/
  programCounter : s.pc.toNat ≤ 0x10FE
  /-- Without a fault the record is empty; with one it names the unadvanced `pc` (R26, R203, R204). -/
  faultRecord : if s.fault.cause = .none then s.fault = FaultRecord.empty else s.fault.pc = s.pc

end Sys2Proof.Machine
end

