-- ==== Sys2Proof/Certificates/Slice0/Obligations.lean ====
section
/-! DEFINITION. The statements for the provers. Each docstring names the rule it formalises; where a clause rests on a
decision the spec marks as its own (D<n>) or on a choice of the model, the docstring says so and names the log entry. -/

namespace Sys2Proof.Claims

open Sys2Proof.Machine

/-- The glyph table of R25 as it is printed, one row of five bytes a glyph. -/
def glyphs : List (List Byte) :=
  [[0xF0, 0x90, 0x90, 0x90, 0xF0], [0x20, 0x60, 0x20, 0x20, 0x70], [0xF0, 0x10, 0xF0, 0x80, 0xF0],
   [0xF0, 0x10, 0xF0, 0x10, 0xF0], [0x90, 0x90, 0xF0, 0x10, 0x10], [0xF0, 0x80, 0xF0, 0x10, 0xF0],
   [0xF0, 0x80, 0xF0, 0x90, 0xF0], [0xF0, 0x10, 0x20, 0x40, 0x40], [0xF0, 0x90, 0xF0, 0x90, 0xF0],
   [0xF0, 0x90, 0xF0, 0x10, 0xF0], [0xF0, 0x90, 0xF0, 0x90, 0x90], [0xE0, 0x90, 0xE0, 0x90, 0xE0],
   [0xF0, 0x80, 0x80, 0x80, 0xF0], [0xE0, 0x90, 0x90, 0x90, 0xE0], [0xF0, 0x80, 0xF0, 0x80, 0xF0],
   [0xF0, 0x80, 0xF0, 0x80, 0x80]]

/-- The registers the instruction writes, `V[15]` as a flag included (the columns "written by" of R28). -/
def writesReg : Instr → Reg → Prop
  | .ldImm x _, y | .addImm x _, y | .ldReg x _, y | .orReg x _, y | .andReg x _, y | .xorReg x _, y => y = x
  | .addReg x _, y | .subReg x _, y | .shr x _, y | .subnReg x _, y | .shl x _, y => y = x ∨ y = 15
  | .rnd x _, y | .ldVxDT x, y | .ldVxK x, y => y = x
  | .drw _ _ _, y => y = 15
  | .ldRegs x, y => y.val ≤ x.val
  | .cls, _ | .ret, _ | .jp _, _ | .jpV0 _, _ | .call _, _ | .seImm _ _, _ | .sneImm _ _, _ | .seReg _ _, _ => False
  | .sneReg _ _, _ | .ldI _, _ | .addI _, _ | .skp _, _ | .sknp _, _ | .ldDTVx _, _ | .ldSTVx _, _ => False
  | .ldF _, _ | .ldB _, _ | .stRegs _, _ | .nop _, _ => False

/-- The instructions that write `V[15]` as a side effect (R12). -/
def writesFlag : Instr → Prop
  | .addReg _ _ | .subReg _ _ | .shr _ _ | .subnReg _ _ | .shl _ _ | .drw _ _ _ => True
  | .cls | .ret | .jp _ | .jpV0 _ | .call _ | .seImm _ _ | .sneImm _ _ | .seReg _ _ | .sneReg _ _ => False
  | .ldImm _ _ | .addImm _ _ | .ldReg _ _ | .orReg _ _ | .andReg _ _ | .xorReg _ _ | .ldI _ | .addI _ => False
  | .rnd _ _ | .skp _ | .sknp _ | .ldVxDT _ | .ldDTVx _ | .ldSTVx _ | .ldVxK _ => False
  | .ldF _ | .ldB _ | .stRegs _ | .ldRegs _ | .nop _ => False

/-- How many bytes of memory the instruction accesses from `I` on; 0 for those that access none (R48). -/
def dataLength : Instr → Nat
  | .drw _ _ n => n.toNat
  | .ldB _ => 3
  | .stRegs x | .ldRegs x => x.val + 1
  | .cls | .ret | .jp _ | .jpV0 _ | .call _ | .seImm _ _ | .sneImm _ _ | .seReg _ _ | .sneReg _ _ => 0
  | .ldImm _ _ | .addImm _ _ | .ldReg _ _ | .orReg _ _ | .andReg _ _ | .xorReg _ _ | .ldI _ | .addI _ => 0
  | .addReg _ _ | .subReg _ _ | .shr _ _ | .subnReg _ _ | .shl _ _ | .rnd _ _ | .skp _ | .sknp _ => 0
  | .ldVxDT _ | .ldDTVx _ | .ldSTVx _ | .ldVxK _ | .ldF _ | .nop _ => 0

/-- The lowest address of a data access from `I` on that is out of range, `max(I, 0x1000)` (R201). -/
def badAddress (s : State) : Word := if s.i.toNat ≤ 0xFFF then 0x1000 else s.i

/-- MEM_BOUNDS of an access to `len` bytes from `I` on: raised when one of them lies above 0xFFF (R201). -/
def raisesMemBounds (s : State) (len : Nat) : Option (FaultCause × Word) :=
  if len ≠ 0 ∧ 0xFFF < s.i.toNat + len - 1 then some (.memBounds, badAddress s) else none

/-- The table of R201: the cause an instruction raises in a state, and `fault.info`; `none` where it raises nothing. -/
def raises (i : Instr) (s : State) : Option (FaultCause × Word) :=
  match i with
  | .call _ => if s.sp.toNat = 16 then some (.stackOverflow, 16) else none
  | .ret => if s.sp.toNat = 0 then some (.stackUnderflow, 0) else none
  | .ldF x => if 15 < (s.reg x).toNat then some (.fontIndex, (s.reg x).zeroExtend 16) else none
  | .skp x | .sknp x => if 15 < (s.reg x).toNat then some (.keyIndex, (s.reg x).zeroExtend 16) else none
  | .drw _ _ n => raisesMemBounds s n.toNat
  | .ldB _ => raisesMemBounds s 3
  | .stRegs x | .ldRegs x => raisesMemBounds s (x.val + 1)
  | .cls | .jp _ | .jpV0 _ | .seImm _ _ | .sneImm _ _ | .seReg _ _ | .sneReg _ _ => none
  | .ldImm _ _ | .addImm _ _ | .ldReg _ _ | .orReg _ _ | .andReg _ _ | .xorReg _ _ | .ldI _ | .addI _ => none
  | .addReg _ _ | .subReg _ _ | .shr _ _ | .subnReg _ _ | .shl _ _ | .rnd _ _ => none
  | .ldVxDT _ | .ldDTVx _ | .ldSTVx _ | .ldVxK _ | .nop _ => none

/-- The state a cycle works on: the key snapshot of the cycle taken (R80, R87; the queue is log 3). -/
def sampled (s : State) : State := { s with key := s.keysIn.headD s.key, keysIn := s.keysIn.tail }

/-- The word at `pc`, the byte at the lower address first (R42). -/
def wordAtPc (s : State) : Word := Memory.read s.mem s.pc.toNat ++ Memory.read s.mem (s.pc.toNat + 1)

/-- A timer after one decrement (R84). -/
def oneLess (t : Byte) : Byte := if t = 0 then 0 else t - 1

/-- No key of the snapshot is pressed. -/
def noKey (keys : Keypad) : Prop := ∀ k : Fin 16, keys[k] = false

end Sys2Proof.Claims

open Sys2Proof Sys2Proof.Machine

/-! ### Reset, the cycle and the faults -/

/-- R29, R25 and R230: what reset leaves, from whatever state. `pc`, `sp` and the first font byte are the document's;
the zeros are the spec's own decision D13 (log 1), the other font bytes its decision D14 (log 2), the fault record D2. -/
def Obligations.ResetLeavesTheTableOfResetValues : Prop :=
  (∀ s, applyReset s = State.reset) ∧
  State.reset.pc = 0x0200 ∧ State.reset.sp = 0 ∧ (∀ x, State.reset.reg x = 0) ∧ State.reset.i = 0 ∧
  (∀ k : Fin 16, State.reset.stack[k] = 0) ∧ State.reset.dt = 0 ∧ State.reset.st = 0 ∧ Claims.noKey State.reset.key ∧
  (∀ px py, State.reset.screen.at px py = false) ∧ State.reset.opcode = 0 ∧
  State.reset.fault = ⟨.none, 0, 0, 0⟩ ∧
  (∀ d < 16, Memory.readBytes State.reset.mem (0x050 + 5 * d) 5 = Claims.glyphs.getD d []) ∧
  (∀ a < 0x1000, a < 0x050 ∨ 0x0A0 ≤ a → Memory.read State.reset.mem a = 0)

/-- R80 to R84 and R203 around one instruction: the machine samples the keys, fetches the word at `pc`, latches it,
advances `pc` by 2 and runs the decoded instruction. A handler that raises nothing is followed by the timer decrement;
of one that raises, only the fault record is kept (the spec's decision D2, log 6); a stop of the model stops the step. -/
def Obligations.StepRunsTheDecodedInstruction : Prop :=
  ∀ (s : State) (i : Instr), s.Running → s.pc.toNat ≤ 0xFFE → decode (Claims.wordAtPc s) = i →
    let found : State := { Claims.sampled s with opcode := Claims.wordAtPc s, pc := s.pc + 2 }
    step s = match exec i found with
      | .next t =>
        if t.Running then .next { t with dt := Claims.oneLess t.dt, st := Claims.oneLess t.st }
        else .next { Claims.sampled s with fault := t.fault }
      | .fault r => .fault r
      | .refused r => .refused r

/-- R42, whole: the fetched word is `(memory[pc] << 8) | memory[pc + 1]`, its high byte the byte at the lower address,
and it is what the cycle latches into `opcode`. -/
def Obligations.FetchIsBigEndian : Prop :=
  (∀ s : State, let hi := Memory.read s.mem s.pc.toNat
    let lo := Memory.read s.mem (s.pc.toNat + 1)
    s.fetchWord = (hi.zeroExtend 16 <<< 8) ||| lo.zeroExtend 16 ∧
    s.fetchWord.extractLsb' 8 8 = hi ∧ s.fetchWord.extractLsb' 0 8 = lo ∧
    topOf s.fetchWord = hi.extractLsb' 4 4 ∧ regField (xOf s.fetchWord) = hi.extractLsb' 0 4 ∧
    regField (yOf s.fetchWord) = lo.extractLsb' 4 4 ∧ nOf s.fetchWord = lo.extractLsb' 0 4 ∧
    kkOf s.fetchWord = lo) ∧
  (∀ s : State, Memory.read s.mem s.pc.toNat = 0x6A → Memory.read s.mem (s.pc.toNat + 1) = 0x05 →
    s.fetchWord = 0x6A05) ∧
  (∀ s t : State, s.Running → s.pc.toNat ≤ 0xFFE → step s = .next t → t.Running → t.opcode = s.fetchWord)

/-- R82: `pc` advances by 2 before the handler in every cycle that completes, NOP included. So a cycle of an instruction that
does not write `pc` ends at the next instruction, a skip ends there or at net +4, `2nnn` pushes the address of the
instruction after the call, and `Fx0A` without a key has no net advance. -/
def Obligations.PcAdvancesBeforeTheHandler : Prop :=
  ∀ s t : State, s.Running → s.pc.toNat ≤ 0xFFE → step s = .next t → t.Running →
    match decode s.fetchWord with
    | .jp _ | .jpV0 _ | .ret => ∃ u, exec (decode s.fetchWord)
        { Claims.sampled s with opcode := s.fetchWord, pc := s.pc + 2 } = .next u ∧ t.pc = u.pc
    | .call _ => t.stack[s.sp.toNat]? = some (s.pc + 2)
    | .seImm _ _ | .sneImm _ _ | .seReg _ _ | .sneReg _ _ | .skp _ | .sknp _ =>
      t.pc = s.pc + 2 ∨ t.pc = s.pc + 2 + 2
    | .ldVxK _ => (Claims.noKey t.key → t.pc = s.pc) ∧ (¬Claims.noKey t.key → t.pc = s.pc + 2)
    | .cls | .ldImm _ _ | .addImm _ _ | .ldReg _ _ | .orReg _ _ | .andReg _ _ | .xorReg _ _ | .addReg _ _
    | .subReg _ _ | .shr _ _ | .subnReg _ _ | .shl _ _ | .ldI _ | .addI _ | .rnd _ _ | .drw _ _ _ | .ldVxDT _
    | .ldDTVx _ | .ldSTVx _ | .ldF _ | .ldB _ | .stRegs _ | .ldRegs _ | .nop _ => t.pc = s.pc + 2

/-- The halted state (the spec's decision D2, log 6): no number of cycles changes anything of it, the recorded fault
included, so that the first fault is the one kept. -/
def Obligations.HaltedMachineNeverChanges : Prop :=
  ∀ (s : State) (n : Nat), s.Halted → Host.Core.run core n s = .next s

/-- FETCH_BOUNDS (the spec's decisions D2 and D4, log 13): a cycle whose `pc` is above 0xFFE takes the key snapshot,
writes the fault record with the unadvanced `pc`, opcode 0 and info `pc`, and nothing else. -/
def Obligations.FetchAboveMemoryRaisesFetchBounds : Prop :=
  ∀ s : State, s.Running → 0xFFE < s.pc.toNat →
    step s = .next { Claims.sampled s with fault := ⟨.fetchBounds, s.pc, 0, s.pc⟩ }

/-- Faults are precise (the spec's decision D2, log 5 and log 6): whatever cycle ends halted kept nothing of its own
but the key snapshot and the record, which holds the unadvanced `pc` and the fetched word (0 for a fetch fault). -/
def Obligations.FaultingCycleKeepsOnlyTheRecord : Prop :=
  ∀ s t : State, s.Running → step s = .next t → t.Halted →
    ∃ info, t = { Claims.sampled s with
      fault := ⟨t.fault.cause, s.pc, if t.fault.cause = .fetchBounds then 0 else Claims.wordAtPc s, info⟩ }

/-- The fault table of R201 (the spec's decisions D2, D6, D7, D8, D9, log 13), handler by handler: an instruction
raises exactly the cause of its row, with that row's info; every other one leaves the record alone. -/
def Obligations.FaultsAreRaisedExactlyByTheTable : Prop :=
  ∀ (i : Instr) (s t : State), exec i s = .next t →
    match Claims.raises i s with
    | some (cause, info) => t = { s with fault := ⟨cause, s.pc - 2, s.opcode, info⟩ }
    | none => t.fault = s.fault

/-- The timers over a whole cycle (R84, R235; the cadence is D21): each loses 1 unless it is 0, after the handler, so a
value written by `Fx15` or `Fx18` has lost 1 at the end of the same cycle. A faulting cycle leaves both alone. -/
def Obligations.TimersCountDownAfterTheHandler : Prop :=
  ∀ s t : State, s.Running → step s = .next t →
    if t.Halted then t.dt = s.dt ∧ t.st = s.st
    else
      (match decode s.fetchWord with
        | .ldDTVx x => t.dt.toNat = (s.reg x).toNat - 1
        | _ => t.dt.toNat = s.dt.toNat - 1) ∧
      (match decode s.fetchWord with
        | .ldSTVx x => t.st.toNat = (s.reg x).toNat - 1
        | _ => t.st.toNat = s.st.toNat - 1)

/-- Keypad sampling (the spec's decision D17; the queue of inputs is log 3): a cycle of a running machine takes one
snapshot, the array presented for it or the last one, and no instruction changes it. -/
def Obligations.KeypadIsSampledOncePerCycle : Prop :=
  ∀ s t : State, s.Running → step s = .next t → t.key = s.keysIn.headD s.key ∧ t.keysIn = s.keysIn.tail

/-! ### The host's ports -/

/-- The ROM load of R53 (refusing a long image is the spec's decision D20, log 18): byte `k` of the image goes to
`0x200 + k`, every other byte and all other state is as before; an image above 3584 bytes loads nothing. -/
def Obligations.RomLoadPlacesTheImage : Prop :=
  ∀ (rom : List Byte) (s : State), s.mem.wf →
    (rom.length ≤ 3584 → ∃ m, loadRom rom s = some { s with mem := m } ∧ m.wf ∧
      (∀ k < rom.length, rom[k]? = some (Memory.read m (0x200 + k))) ∧
      (∀ a, a < 0x200 ∨ 0x200 + rom.length ≤ a → Memory.read m a = Memory.read s.mem a)) ∧
    (3584 < rom.length → loadRom rom s = none)

/-- The display and sound ports (R172, R211, R216): 2048 words, word `py * 64 + px` all ones for a pixel that is on and
all zeros for one that is off; the sound port gives `ST`. -/
def Obligations.DisplayBufferIsRowMajor : Prop :=
  ∀ s : State, (displayBuffer s).length = 2048 ∧ soundOut s = s.st ∧
    ∀ (px : Fin 64) (py : Fin 32),
      (displayBuffer s)[py.val * 64 + px.val]? = some (if s.screen.at px py then 0xFFFFFFFF else 0)

/-! ### Invariants -/

/-- Reset meets the invariant of Safety.lean (log 23). -/
def Obligations.ResetMeetsTheInvariant : Prop := State.reset.Inv

/-- Every cycle keeps the invariant, from every state that meets it: the memory list stays canonical, `sp` in 0 to 16
(R17, R27(b)), stack entries at most 0x1000 (R100), `pc` at most 0x10FE (R14), and the fault record empty or naming the
unadvanced `pc` (R26, R203). -/
def Obligations.StepKeepsTheInvariant : Prop :=
  ∀ s t : State, s.Inv → step s = .next t → t.Inv

/-- No cycle of a machine whose `sp` is legal (R17) is stopped by the model or refused: every word executes (R62, R67),
and the hardware's faults are next states (log 6). The invariant above supplies the premise. -/
def Obligations.StepAlwaysAnswersAState : Prop :=
  ∀ s : State, s.sp.toNat ≤ 16 → ∃ t, step s = .next t

/-- The parked machine (the spec's decision D25): after any number of cycles it is parked at the same `pc`, and nothing
but the timers, `opcode`, `key` and the waiting inputs can have changed; each timer has counted down by that number. -/
def Obligations.ParkedMachineOnlyCountsDown : Prop :=
  ∀ (n : Nat) (s : State), s.Parked → ∃ t, Host.Core.run core n s = .next t ∧ t.Parked ∧
    t = { s with dt := t.dt, st := t.st, opcode := t.opcode, key := t.key, keysIn := s.keysIn.drop n } ∧
    t.dt.toNat = s.dt.toNat - n ∧ t.st.toNat = s.st.toNat - n

/-- The canonical form does its work (log 21): memories that read alike everywhere are equal data. -/
def Obligations.MemoryIsDeterminedByItsReads : Prop :=
  ∀ m m' : Memory, m.wf → m'.wf → (∀ a, Memory.read m a = Memory.read m' a) → m = m'

/-! ### Encoding -/

/-- Decoding the canonical word of a well-formed instruction gives it back, for all 35 constructors (R61, R69). -/
def Obligations.DecodeOfEncodeIsTheInstruction : Prop :=
  ∀ i : Instr, i.wf = true → decode (encode i) = i

/-- The two-level dispatch of R62 to R65 and the mask and match table of R71 are the same decoder. -/
def Obligations.TwoLevelDispatchEqualsTheRowTable : Prop :=
  ∀ w : Word, decode w = decodeByRows w

/-- R71: no word matches two of the 34 instruction rows. -/
def Obligations.InstructionRowsAreMutuallyExclusive : Prop :=
  decodeRows.length = 34 ∧
  decodeRows.Pairwise fun a b => ∀ w : Word, ¬(w &&& a.mask = a.value ∧ w &&& b.mask = b.value)

/-- R67 (the policy is the spec's decision D10, log 11): the words of its list, and no others, decode to the no-op, and
every decoded instruction is well-formed. -/
def Obligations.ExactlyTheUnassignedWordsAreNops : Prop :=
  ∀ w : Word, (decode w).wf = true ∧ (unassigned w = true → decode w = .nop w) ∧
    (unassigned w = false → ∀ w', decode w ≠ .nop w')

/-- Outside the four top nibbles that hold alias words (R66; that aliases execute is D28, log 10), encoding a decoded
word gives the word back: no bit of it is dropped. Of any word, the canonical word decodes to the same instruction. -/
def Obligations.EncodeOfDecodeIsTheWord : Prop :=
  ∀ w : Word, decode (encode (decode w)) = decode w ∧
    (topOf w ≠ 0x0 → topOf w ≠ 0x5 → topOf w ≠ 0x9 → topOf w ≠ 0xE → encode (decode w) = w)

/-- Words written out from the patterns of R69 and what they stand for, one or more of each format of R61, with the
alias words of R66 (D28) and an unassigned word of R67. -/
def Obligations.SampleWordsDecode : Prop :=
  decode 0x00E0 = .cls ∧ decode 0x00EE = .ret ∧ decode 0x1228 = .jp 0x228 ∧ decode 0x2ABC = .call 0xABC ∧
  decode 0xB300 = .jpV0 0x300 ∧ decode 0xA050 = .ldI 0x050 ∧ decode 0x3A05 = .seImm 10 0x05 ∧
  decode 0x6A05 = .ldImm 10 0x05 ∧ decode 0xC10F = .rnd 1 0x0F ∧ decode 0x5120 = .seReg 1 2 ∧
  decode 0x8AB4 = .addReg 10 11 ∧ decode 0x8127 = .subnReg 1 2 ∧ decode 0xD125 = .drw 1 2 5 ∧
  decode 0xE39E = .skp 3 ∧ decode 0xE3A1 = .sknp 3 ∧ decode 0xF50A = .ldVxK 5 ∧ decode 0xF265 = .ldRegs 2 ∧
  decode 0x0000 = .cls ∧ decode 0x0FFE = .ret ∧ decode 0x5121 = .seReg 1 2 ∧ decode 0x912F = .sneReg 1 2 ∧
  decode 0xE30E = .skp 3 ∧ decode 0xE301 = .sknp 3 ∧ decode 0x8008 = .nop 0x8008

/-! ### Control flow -/

/-- R101: encoding and effect of `1nnn`; nothing but `pc` changes. -/
def Obligations.JumpSetsPcToNnn : Prop :=
  (∀ w : Word, w &&& 0xF000 = 0x1000 → decode w = .jp (w.extractLsb' 0 12)) ∧
  (∀ (nnn : Addr12) (s : State), exec (.jp nnn) s = .next { s with pc := nnn.zeroExtend 16 })

/-- R103: encoding and effect of `Bnnn`; the 16-bit sum never wraps and is not masked. -/
def Obligations.JumpWithOffsetSetsPcToTheSum : Prop :=
  (∀ w : Word, w &&& 0xF000 = 0xB000 → decode w = .jpV0 (w.extractLsb' 0 12)) ∧
  (∀ (nnn : Addr12) (s : State), ∃ target : Word, target.toNat = (s.reg 0).toNat + nnn.toNat ∧
    exec (.jpV0 nnn) s = .next { s with pc := target })

/-- `2nnn` with a free slot (R102): the advanced `pc` goes into `stack[sp]`, `sp` goes up by 1, `pc` is `nnn`; the
other entries and everything else stay. -/
def Obligations.CallPushesTheReturnAddress : Prop :=
  ∀ (nnn : Addr12) (s : State) (k : Fin 16), s.sp.toNat = k.val →
    exec (.call nnn) s =
      .next { s with stack := s.stack.set k s.pc, sp := BitVec.ofNat 8 (k.val + 1), pc := nnn.zeroExtend 16 }

/-- `00EE` with a pushed address (R100): `sp` goes down by 1 and `pc` is all 16 bits of `stack[sp]`; the entry keeps its
value and everything else stays. -/
def Obligations.ReturnPopsTheReturnAddress : Prop :=
  ∀ (s : State) (k : Fin 16), s.sp.toNat = k.val + 1 →
    exec .ret s = .next { s with sp := BitVec.ofNat 8 k.val, pc := s.stack[k] }

/-- The ends of the stack. STACK_OVERFLOW and STACK_UNDERFLOW are the spec's decisions D2 and D6 (log 13); the stop at an
`sp` above 16, which R17 says is never reached, is the model's (log 7). -/
def Obligations.StackLimitsRaiseOrStop : Prop :=
  ∀ (nnn : Addr12) (s : State),
    (s.sp.toNat = 16 → exec (.call nnn) s = .next { s with fault := ⟨.stackOverflow, s.pc - 2, s.opcode, 16⟩ }) ∧
    (s.sp.toNat = 0 → exec .ret s = .next { s with fault := ⟨.stackUnderflow, s.pc - 2, s.opcode, 0⟩ }) ∧
    (16 < s.sp.toNat → exec (.call nnn) s = .fault .stackPointerOutOfRange) ∧
    (16 < s.sp.toNat → exec .ret s = .fault .stackPointerOutOfRange)

/-- A call and a return, whatever `pc` the called code ends at (R100, R102): execution goes on after the call with the
stack pointer as before. -/
def Obligations.ReturnUndoesCall : Prop :=
  ∀ (nnn : Addr12) (s : State) (p : Word), s.sp.toNat < 16 →
    ∃ t u, exec (.call nnn) s = .next t ∧ exec .ret { t with pc := p } = .next u ∧ u.pc = s.pc ∧ u.sp = s.sp

/-- The four register skips (R104 to R108; which tests what is the spec's decision D24, log 14): `pc` moves on by 2 more
exactly when the condition holds, and nothing else changes. -/
def Obligations.SkipsAddTwoWhenTheirConditionHolds : Prop :=
  ∀ (x y : Reg) (kk : Byte) (s : State),
    exec (.seImm x kk) s = .next (if s.reg x = kk then { s with pc := s.pc + 2 } else s) ∧
    exec (.sneImm x kk) s = .next (if s.reg x = kk then s else { s with pc := s.pc + 2 }) ∧
    exec (.seReg x y) s = .next (if s.reg x = s.reg y then { s with pc := s.pc + 2 } else s) ∧
    exec (.sneReg x y) s = .next (if s.reg x = s.reg y then s else { s with pc := s.pc + 2 })

/-! ### Registers and arithmetic -/

/-- R120, whole: encoding and effect of `6xkk`; for `x = 15` it writes VF like any register. -/
def Obligations.LoadImmediateWritesKk : Prop :=
  (∀ w : Word, w &&& 0xF000 = 0x6000 → decode w = .ldImm (w.extractLsb' 8 4).toFin (w.extractLsb' 0 8)) ∧
  (∀ (x : Reg) (kk : Byte) (s : State), exec (.ldImm x kk) s = .next { s with v := s.v.set x kk })

/-- R121, whole: encoding and effect of `7xkk`; the sum wraps modulo 256 and VF is left as it was unless `x = 15`. -/
def Obligations.AddImmediateWrapsWithoutFlag : Prop :=
  (∀ w : Word, w &&& 0xF000 = 0x7000 → decode w = .addImm (w.extractLsb' 8 4).toFin (w.extractLsb' 0 8)) ∧
  (∀ (x : Reg) (kk : Byte) (s : State), ∃ r : Byte, r.toNat = ((s.reg x).toNat + kk.toNat) % 256 ∧
    exec (.addImm x kk) s = .next { s with v := s.v.set x r } ∧
    (x ≠ 15 → (s.v.set x r)[15] = s.v[15]))

/-- `8xy0` to `8xy3` (R122 to R125; `V[x]` as destination is the spec's decision D24, log 14): only `V[x]` changes, no
flag is written. -/
def Obligations.MoveAndLogicWriteOnlyVx : Prop :=
  ∀ (x y : Reg) (s : State),
    exec (.ldReg x y) s = .next { s with v := s.v.set x s.v[y] } ∧
    exec (.orReg x y) s = .next { s with v := s.v.set x (s.v[x] ||| s.v[y]) } ∧
    exec (.andReg x y) s = .next { s with v := s.v.set x (s.v[x] &&& s.v[y]) } ∧
    exec (.xorReg x y) s = .next { s with v := s.v.set x (s.v[x] ^^^ s.v[y]) }

/-- `8xy4`, `8xy5`, `8xy7` (R126, R127, R129): the result modulo 256 into `V[x]`, then VF from the values before; the
carry is the overflow of the 8-bit sum, equivalently a wrapped sum below the original; the subtraction flag is the strict
comparison. Only `V[x]` and VF change. That the flag wins for `x = 15` is the spec's decision D11 (log 8). -/
def Obligations.AddAndSubtractSetTheirFlag : Prop :=
  ∀ (x y : Reg) (s : State), let a := (s.reg x).toNat
    let b := (s.reg y).toNat
    (∃ r : Byte, r.toNat = (a + b) % 256 ∧ (255 < a + b ↔ r.toNat < a) ∧
      exec (.addReg x y) s = .next { s with v := (s.v.set x r).set 15 (if 255 < a + b then 1 else 0) }) ∧
    (∃ r : Byte, r.toNat = (a + 256 - b) % 256 ∧
      exec (.subReg x y) s = .next { s with v := (s.v.set x r).set 15 (if b < a then 1 else 0) }) ∧
    (∃ r : Byte, r.toNat = (b + 256 - a) % 256 ∧
      exec (.subnReg x y) s = .next { s with v := (s.v.set x r).set 15 (if a < b then 1 else 0) })

/-- `8xy6`, `8xyE` (R128, R130): `V[x]` shifted by one bit in place, VF the bit shifted out, `V[y]` without effect. That
the flag wins for `x = 15` is the spec's decision D11 (log 8). -/
def Obligations.ShiftsSetTheDroppedBit : Prop :=
  ∀ (x y : Reg) (s : State), let a := (s.reg x).toNat
    (∃ r : Byte, r.toNat = a / 2 ∧
      exec (.shr x y) s = .next { s with v := (s.v.set x r).set 15 (BitVec.ofNat 8 (a % 2)) }) ∧
    (∃ r : Byte, r.toNat = 2 * a % 256 ∧
      exec (.shl x y) s = .next { s with v := (s.v.set x r).set 15 (BitVec.ofNat 8 (a / 128)) })

/-- VF as the only flag (R12; the register 15 forms are the spec's decisions D11 and D32, log 8): the instructions of
R12's list leave 0 or 1 in it whatever `x` is, and no other instruction changes it but as an ordinary destination. -/
def Obligations.OnlyTheListedInstructionsWriteTheFlag : Prop :=
  ∀ (i : Instr) (s t : State), exec i s = .next t →
    (Claims.writesFlag i → t.Running → t.reg 15 = 0 ∨ t.reg 15 = 1) ∧
    (¬Claims.writesFlag i → ¬Claims.writesReg i 15 → t.reg 15 = s.reg 15)

/-- `Cxkk` (R131; the draw is free, the spec's decision D16, log 4): `V[x]` gets the draw AND `kk` and one draw is
consumed. The draw is the next byte of the input queue, or the free value when none waits; whatever it is, no bit outside
`kk` is set. -/
def Obligations.RandomIsADrawMaskedByKk : Prop :=
  ∀ (x : Reg) (kk : Byte) (s : State),
    (∀ r rest, s.rndIn = r :: rest →
      exec (.rnd x kk) s = .next { s with v := s.v.set x (r &&& kk), rndIn := rest, draws := s.draws + 1 }) ∧
    (s.rndIn = [] → ∃ r : Byte,
      exec (.rnd x kk) s = .next { s with v := s.v.set x (r &&& kk), draws := s.draws + 1 }) ∧
    (∃ t, exec (.rnd x kk) s = .next t ∧ t.reg x &&& ~~~kk = 0)

/-! ### Index register and memory -/

/-- R150, whole: encoding and effect of `Annn`. -/
def Obligations.LoadIndexWritesNnn : Prop :=
  (∀ w : Word, w &&& 0xF000 = 0xA000 → decode w = .ldI (w.extractLsb' 0 12)) ∧
  (∀ (nnn : Addr12) (s : State), exec (.ldI nnn) s = .next { s with i := nnn.zeroExtend 16 })

/-- `Fx1E` (R151; the wrap and the missing flag are the spec's decision D18, log 15). -/
def Obligations.AddIndexWrapsAtSixteenBits : Prop :=
  ∀ (x : Reg) (s : State), ∃ r : Word, r.toNat = (s.i.toNat + (s.reg x).toNat) % 65536 ∧
    exec (.addI x) s = .next { s with i := r }

/-- `Fx29` (R152; the fault is the spec's decision D8, log 13): the glyph address for a digit, FONT_INDEX above 15. -/
def Obligations.FontAddressOfADigit : Prop :=
  ∀ (x : Reg) (s : State),
    ((s.reg x).toNat ≤ 15 → ∃ r : Word, r.toNat = 0x050 + 5 * (s.reg x).toNat ∧
      exec (.ldF x) s = .next { s with i := r }) ∧
    (15 < (s.reg x).toNat → exec (.ldF x) s =
      .next { s with fault := ⟨.fontIndex, s.pc - 2, s.opcode, (s.reg x).zeroExtend 16⟩ })

/-- `Fx33` inside memory (R153): hundreds, tens and units of `V[x]` at `I`, `I + 1`, `I + 2`; every other byte and all
other state, `I` included, unchanged. -/
def Obligations.DecimalDigitsAreStored : Prop :=
  ∀ (x : Reg) (s : State), s.mem.wf → s.i.toNat + 2 ≤ 0xFFF →
    ∃ m, exec (.ldB x) s = .next { s with mem := m } ∧
      (Memory.read m (s.dataAddr 0)).toNat = (s.reg x).toNat / 100 ∧
      (Memory.read m (s.dataAddr 1)).toNat = (s.reg x).toNat / 10 % 10 ∧
      (Memory.read m (s.dataAddr 2)).toNat = (s.reg x).toNat % 10 ∧
      (∀ a, a ≠ s.dataAddr 0 → a ≠ s.dataAddr 1 → a ≠ s.dataAddr 2 → Memory.read m a = Memory.read s.mem a)

/-- `Fx55` inside memory (R154): `V[k]` at `I + k` for `k` from 0 to `x` by register index; every other byte and all other
state, `I` included, unchanged. -/
def Obligations.BlockStoreWritesTheRegisters : Prop :=
  ∀ (x : Reg) (s : State), s.mem.wf → s.i.toNat + x.val ≤ 0xFFF →
    ∃ m, exec (.stRegs x) s = .next { s with mem := m } ∧
      (∀ k : Reg, k.val ≤ x.val → Memory.read m (s.dataAddr k.val) = s.reg k) ∧
      (∀ a, a < s.dataAddr 0 ∨ s.dataAddr x.val < a → Memory.read m a = Memory.read s.mem a)

/-- `Fx65` inside memory (R155): `V[k]` from `I + k` for `k` from 0 to `x`; the registers above `x` and all other state,
`I` and memory included, unchanged. -/
def Obligations.BlockLoadReadsTheRegisters : Prop :=
  ∀ (x : Reg) (s : State), s.i.toNat + x.val ≤ 0xFFF →
    ∃ t, exec (.ldRegs x) s = .next t ∧ t = { s with v := t.v } ∧
      (∀ k : Reg, k.val ≤ x.val → t.reg k = Memory.read s.mem (s.dataAddr k.val)) ∧
      (∀ k : Reg, x.val < k.val → t.reg k = s.reg k)

/-- MEM_BOUNDS (the spec's decisions D2 and D7, log 13): `Dxyn` with rows, `Fx33`, `Fx55` and `Fx65` check the whole range
before they write anything, and record the lowest address out of range. -/
def Obligations.AccessAboveMemoryRaisesMemBounds : Prop :=
  ∀ (i : Instr) (s : State), Claims.dataLength i ≠ 0 → 0xFFF < s.i.toNat + Claims.dataLength i - 1 →
    exec i s = .next { s with fault :=
      ⟨.memBounds, s.pc - 2, s.opcode, if 0xFFF < s.i.toNat then s.i else 0x1000⟩ }

/-- Storing `V[0]` to `V[x]` and loading them back over any register contents restores them (R154 to R156; that `I` stays
is the spec's decision D19, log 15). -/
def Obligations.BlockLoadAfterStoreRestoresRegisters : Prop :=
  ∀ (x : Reg) (s : State) (v : Vector Byte 16), s.mem.wf → s.i.toNat + x.val ≤ 0xFFF →
    ∃ t u, exec (.stRegs x) s = .next t ∧ exec (.ldRegs x) { t with v := v } = .next u ∧
      ∀ k : Reg, u.reg k = if k.val ≤ x.val then s.reg k else v[k]

/-! ### Display -/

/-- `00E0` (R170; that the alias words `0??0` execute it is D28, log 10): all pixels off, nothing else changes. -/
def Obligations.ClearScreenTurnsEveryPixelOff : Prop :=
  (∀ w : Word, w &&& 0xF00F = 0x0000 → decode w = .cls) ∧
  (∀ s : State, ∃ scr : Screen, exec .cls s = .next { s with screen := scr } ∧ ∀ px py, scr.at px py = false)

/-- `Dxyn` inside memory (R171; reading the coordinates before VF is cleared is D12, log 9, and `n = 0` is D26, log 20):
every pixel is the old one XOR the sprite bit that lands on it with per-pixel wrap-around, VF is 1 exactly when a sprite
bit of 1 lands on a pixel that was on, and nothing else changes. -/
def Obligations.DrawXorsTheSpriteOntoTheScreen : Prop :=
  ∀ (x y : Reg) (n : Nibble) (s : State), (n = 0 ∨ s.i.toNat + n.toNat - 1 ≤ 0xFFF) →
    let bit := spriteBit (Memory.readBytes s.mem (s.dataAddr 0) n.toNat) ((s.reg x).toNat % 64) ((s.reg y).toNat % 32)
    ∃ (scr : Screen) (flag : Byte), exec (.drw x y n) s = .next { s with screen := scr, v := s.v.set 15 flag } ∧
      (∀ px py, scr.at px py = (s.screen.at px py ^^ bit px py)) ∧
      (flag = 0 ∨ flag = 1) ∧ (flag = 1 ↔ ∃ px py, bit px py = true ∧ s.screen.at px py = true)

/-- R171(f): drawing the same sprite twice at the same place restores the screen. By the rule's pseudocode the second draw
sets VF to 1 exactly when a sprite bit of 1 lands on a pixel that was off before the first; so, where the first draw hit
nothing, exactly when the sprite has a bit of 1, as (f) says (log 25: (f) leaves that condition out). `x` and `y` are not
15, since VF as a coordinate changes with the first draw. -/
def Obligations.DrawingTwiceRestoresTheScreen : Prop :=
  ∀ (x y : Reg) (n : Nibble) (s : State), x ≠ 15 → y ≠ 15 → (n = 0 ∨ s.i.toNat + n.toNat - 1 ≤ 0xFFF) →
    let bit := spriteBit (Memory.readBytes s.mem (s.dataAddr 0) n.toNat) ((s.reg x).toNat % 64) ((s.reg y).toNat % 32)
    ∃ t u, exec (.drw x y n) s = .next t ∧ exec (.drw x y n) t = .next u ∧ u.screen = s.screen ∧
      (u.reg 15 = 1 ↔ ∃ px py, bit px py = true ∧ s.screen.at px py = false) ∧
      (t.reg 15 = 0 → (u.reg 15 = 1 ↔ ∃ r < n.toNat, Memory.read s.mem (s.dataAddr r) ≠ 0))

/-- The document's property of `00E0`: a draw right after it gives exactly the sprite's own pixels and no flag. -/
def Obligations.DrawAfterClearShowsTheSprite : Prop :=
  ∀ (x y : Reg) (n : Nibble) (s : State), (n = 0 ∨ s.i.toNat + n.toNat - 1 ≤ 0xFFF) →
    ∃ t u, exec .cls s = .next t ∧ exec (.drw x y n) t = .next u ∧ u.reg 15 = 0 ∧
      ∀ px py, u.screen.at px py = spriteBit (Memory.readBytes s.mem (s.dataAddr 0) n.toNat)
        ((s.reg x).toNat % 64) ((s.reg y).toNat % 32) px py

/-! ### Keypad and timers -/

/-- `Ex9E` and `ExA1` (R180, R181; the fault is the spec's decision D9, log 13): the skip follows the level of key `V[x]`;
KEY_INDEX above 15. -/
def Obligations.KeySkipsFollowTheKey : Prop :=
  ∀ (x : Reg) (s : State),
    (∀ k : Fin 16, (s.reg x).toNat = k.val →
      exec (.skp x) s = .next (if s.key[k] then { s with pc := s.pc + 2 } else s) ∧
      exec (.sknp x) s = .next (if s.key[k] then s else { s with pc := s.pc + 2 })) ∧
    (15 < (s.reg x).toNat →
      exec (.skp x) s = .next { s with fault := ⟨.keyIndex, s.pc - 2, s.opcode, (s.reg x).zeroExtend 16⟩ } ∧
      exec (.sknp x) s = .next { s with fault := ⟨.keyIndex, s.pc - 2, s.opcode, (s.reg x).zeroExtend 16⟩ })

/-- `Fx07`, `Fx15`, `Fx18` (R182 to R184; which does what is the spec's decision D24, log 14), before the cycle's
decrement; the whole cycle is in TimersCountDownAfterTheHandler. -/
def Obligations.TimerAccessMovesTheTimer : Prop :=
  ∀ (x : Reg) (s : State),
    exec (.ldVxDT x) s = .next { s with v := s.v.set x s.dt } ∧
    exec (.ldDTVx x) s = .next { s with dt := s.v[x] } ∧
    exec (.ldSTVx x) s = .next { s with st := s.v[x] }

/-- R185: encoding of `Fx0A`; the lowest-indexed pressed key goes into `V[x]`; with no key pressed `pc` goes back to
the instruction's own address. Nothing else changes. -/
def Obligations.KeyWaitTakesTheLowestPressedKey : Prop :=
  (∀ w : Word, w &&& 0xF0FF = 0xF00A → decode w = .ldVxK (w.extractLsb' 8 4).toFin) ∧
  (∀ (x : Reg) (s : State),
    (∀ k : Fin 16, s.key[k] = true → (∀ j < k, s.key[j] = false) →
      exec (.ldVxK x) s = .next { s with v := s.v.set x (BitVec.ofNat 8 k.val) }) ∧
    ((∀ k : Fin 16, s.key[k] = false) → exec (.ldVxK x) s = .next { s with pc := s.pc - 2 }))

/-- The document's property of `Fx0A` over any number of cycles without a key (R185(a); the inputs of those cycles are the
queue of log 3): `pc` stays, `opcode` holds the word, the timers go on counting, and nothing else changes. The last
snapshot is what a cycle sees only where no array waits, so only there must it show no key; with a key down in it, the
wait ends in the first cycle (KeyWaitTakesTheLowestPressedKey, PcAdvancesBeforeTheHandler). -/
def Obligations.KeyWaitHoldsThePcWhileNoKeyIsPressed : Prop :=
  ∀ (n : Nat) (s : State) (x : Reg), s.Running → s.pc.toNat ≤ 0xFFE → decode s.fetchWord = .ldVxK x →
    (s.keysIn = [] → Claims.noKey s.key) → (∀ keys ∈ s.keysIn.take n, Claims.noKey keys) →
    ∃ t, Host.Core.run core n s = .next t ∧ t.dt.toNat = s.dt.toNat - n ∧ t.st.toNat = s.st.toNat - n ∧
      t = { s with dt := t.dt, st := t.st, key := t.key, keysIn := s.keysIn.drop n,
                   opcode := if n = 0 then s.opcode else s.fetchWord }

/-! ### The no-op and the whole machine -/

/-- NOP (R86; the policy is the spec's decision D10, log 11): the handler of any word changes nothing, and a cycle of a
running machine on an unassigned word latches it, advances `pc` and counts the timers down, nothing else. -/
def Obligations.NopOnlyAdvances : Prop :=
  (∀ (w : Word) (s : State), exec (.nop w) s = .next s) ∧
  (∀ s : State, s.Running → s.pc.toNat ≤ 0xFFE → unassigned (Claims.wordAtPc s) = true →
    step s = .next { Claims.sampled s with
      opcode := Claims.wordAtPc s, pc := s.pc + 2, dt := Claims.oneLess s.dt, st := Claims.oneLess s.st })

/-- The frame of every instruction (the columns "written by" of R28): state an instruction is not listed for is as the
handler found it. Memory is compared byte by byte through its read; `keysIn` and `draws` are the model's own (log 3, log
4). -/
def Obligations.InstructionsWriteOnlyWhatTheAccessTableLists : Prop :=
  ∀ (i : Instr) (s t : State), exec i s = .next t →
    (∀ y : Reg, ¬Claims.writesReg i y → t.reg y = s.reg y) ∧
    (match i with | .ldI _ | .addI _ | .ldF _ => True | _ => t.i = s.i) ∧
    (match i with | .call _ => True | _ => t.stack = s.stack) ∧
    (match i with | .call _ | .ret => True | _ => t.sp = s.sp) ∧
    (match i with | .ldDTVx _ => True | _ => t.dt = s.dt) ∧
    (match i with | .ldSTVx _ => True | _ => t.st = s.st) ∧
    (match i with | .cls | .drw _ _ _ => True | _ => t.screen = s.screen) ∧
    (match i with
      | .ldB _ | .stRegs _ => s.mem.wf → ∀ a, a < s.dataAddr 0 ∨ s.dataAddr (Claims.dataLength i) ≤ a →
          Memory.read t.mem a = Memory.read s.mem a
      | _ => ∀ a, Memory.read t.mem a = Memory.read s.mem a) ∧
    (match i with
      | .jp _ | .jpV0 _ | .call _ | .ret | .seImm _ _ | .sneImm _ _ | .seReg _ _ | .sneReg _ _ | .skp _ | .sknp _
      | .ldVxK _ => True
      | _ => t.pc = s.pc) ∧
    (match i with | .rnd _ _ => True | _ => t.rndIn = s.rndIn ∧ t.draws = s.draws) ∧
    t.opcode = s.opcode ∧ t.key = s.key ∧ t.keysIn = s.keysIn

/-- No instruction reads the sound timer (R19, R28): changing it before an instruction changes the timer after it, where
`Fx18` does not write it, and nothing else. -/
def Obligations.NoInstructionReadsTheSoundTimer : Prop :=
  ∀ (i : Instr) (s : State) (b : Byte),
    exec i { s with st := b } =
      match exec i s with
      | .next t => .next (match i with | .ldSTVx _ => t | _ => { t with st := b })
      | .fault r => .fault r
      | .refused r => .refused r
end

