-- ==== Sys2Proof/Laws/Decode.lean ====
section
/-! SUPPORT. Laws of the fields, the formats, the masks and the two-level dispatch. -/

namespace Sys2Proof

/-! ### Bits of the formats -/

/-- The bits of a word of format A. -/
theorem getLsbD_formatA (t : Nibble) (nnn : Addr12) (i : Nat) :
    (formatA t nnn).getLsbD i = if i < 12 then nnn.getLsbD i else t.getLsbD (i - 12) :=
  BitVec.getLsbD_append.trans (by simp)

/-- The bits of a word of format I. -/
theorem getLsbD_formatI (t : Nibble) (x : Reg) (kk : Byte) (i : Nat) :
    (formatI t x kk).getLsbD i =
      if i < 8 then kk.getLsbD i else if i < 12 then (regField x).getLsbD (i - 8) else t.getLsbD (i - 12) := by
  refine (BitVec.getLsbD_append (y := regField x ++ kk)).trans ?_
  rw [BitVec.getLsbD_append (y := kk)]
  rcases Nat.lt_or_ge i 8 with h | h
  · simp [h, show i < 12 by omega]
  · simp [show ¬i < 8 by omega]

/-- The bits of a word of format R. -/
theorem getLsbD_formatR (t : Nibble) (x y : Reg) (c : Nibble) (i : Nat) :
    (formatR t x y c).getLsbD i =
      if i < 4 then c.getLsbD i
      else if i < 8 then (regField y).getLsbD (i - 4)
      else if i < 12 then (regField x).getLsbD (i - 8) else t.getLsbD (i - 12) := by
  refine (BitVec.getLsbD_append (y := regField x ++ (regField y ++ c))).trans ?_
  rw [BitVec.getLsbD_append (y := regField y ++ c), BitVec.getLsbD_append (y := c)]
  rcases Nat.lt_or_ge i 4 with h | h
  · simp [h, show i < 12 by omega, show i < 8 by omega]
  · rcases Nat.lt_or_ge i 8 with h' | h'
    · simp [h', show i < 12 by omega, show ¬i < 4 by omega]
    · simp [show ¬i < 8 by omega, show ¬i < 4 by omega]

/-! ### Fields of the formats -/

@[simp] theorem topOf_formatA (t : Nibble) (nnn : Addr12) : topOf (formatA t nnn) = t :=
  BitVec.eq_of_getLsbD_eq fun i hi => by simp [topOf, getLsbD_formatA, hi]

@[simp] theorem nnnOf_formatA (t : Nibble) (nnn : Addr12) : nnnOf (formatA t nnn) = nnn :=
  BitVec.eq_of_getLsbD_eq fun i hi => by simp [nnnOf, getLsbD_formatA, hi]

@[simp] theorem topOf_formatI (t : Nibble) (x : Reg) (kk : Byte) : topOf (formatI t x kk) = t :=
  BitVec.eq_of_getLsbD_eq fun i hi => by
    simp [topOf, getLsbD_formatI, hi, show ¬12 + i < 8 by omega]

@[simp] theorem kkOf_formatI (t : Nibble) (x : Reg) (kk : Byte) : kkOf (formatI t x kk) = kk :=
  BitVec.eq_of_getLsbD_eq fun i hi => by simp [kkOf, getLsbD_formatI, hi]

@[simp] theorem xOf_formatI (t : Nibble) (x : Reg) (kk : Byte) : xOf (formatI t x kk) = x := by
  have h : (formatI t x kk).extractLsb' 8 4 = regField x :=
    BitVec.eq_of_getLsbD_eq fun i hi => by simp [getLsbD_formatI, hi, show 8 + i < 12 by omega]
  rw [xOf, h]
  rfl

@[simp] theorem topOf_formatR (t : Nibble) (x y : Reg) (c : Nibble) : topOf (formatR t x y c) = t :=
  BitVec.eq_of_getLsbD_eq fun i hi => by
    simp [topOf, getLsbD_formatR, hi, show ¬12 + i < 8 by omega, show ¬12 + i < 4 by omega]

@[simp] theorem nOf_formatR (t : Nibble) (x y : Reg) (c : Nibble) : nOf (formatR t x y c) = c :=
  BitVec.eq_of_getLsbD_eq fun i hi => by simp [nOf, getLsbD_formatR, hi]

@[simp] theorem xOf_formatR (t : Nibble) (x y : Reg) (c : Nibble) : xOf (formatR t x y c) = x := by
  have h : (formatR t x y c).extractLsb' 8 4 = regField x :=
    BitVec.eq_of_getLsbD_eq fun i hi => by
      simp [getLsbD_formatR, hi, show 8 + i < 12 by omega, show ¬8 + i < 4 by omega]
  rw [xOf, h]
  rfl

@[simp] theorem yOf_formatR (t : Nibble) (x y : Reg) (c : Nibble) : yOf (formatR t x y c) = y := by
  have h : (formatR t x y c).extractLsb' 4 4 = regField y :=
    BitVec.eq_of_getLsbD_eq fun i hi => by simp [getLsbD_formatR, hi, show 4 + i < 8 by omega]
  rw [yOf, h]
  rfl

/-- The low nibble of a word of format I is that of its low byte. -/
@[simp] theorem nOf_formatI (t : Nibble) (x : Reg) (kk : Byte) : nOf (formatI t x kk) = kk.extractLsb' 0 4 :=
  BitVec.eq_of_getLsbD_eq fun i hi => by simp [nOf, getLsbD_formatI, hi, show i < 8 by omega]

/-! ### A word is made of its fields -/

/-- The field that holds `xOf w`. -/
theorem regField_xOf (w : Word) : regField (xOf w) = w.extractLsb' 8 4 := rfl

/-- The field that holds `yOf w`. -/
theorem regField_yOf (w : Word) : regField (yOf w) = w.extractLsb' 4 4 := rfl

/-- A word is the word of format A of its fields. -/
theorem formatA_fields (w : Word) : formatA (topOf w) (nnnOf w) = w :=
  BitVec.eq_of_getLsbD_eq fun i hi => by
    rw [getLsbD_formatA]
    by_cases h : i < 12
    · simp [h, nnnOf]
    · simp [h, topOf, show i - 12 < 4 by omega, show 12 + (i - 12) = i by omega]

/-- A word is the word of format I of its fields. -/
theorem formatI_fields (w : Word) : formatI (topOf w) (xOf w) (kkOf w) = w :=
  BitVec.eq_of_getLsbD_eq fun i hi => by
    rw [getLsbD_formatI, regField_xOf]
    by_cases h : i < 8
    · simp [h, kkOf]
    · by_cases h' : i < 12
      · simp [h, h', show i - 8 < 4 by omega, show 8 + (i - 8) = i by omega]
      · simp [h, h', topOf, show i - 12 < 4 by omega, show 12 + (i - 12) = i by omega]

/-- A word is the word of format R of its fields. -/
theorem formatR_fields (w : Word) : formatR (topOf w) (xOf w) (yOf w) (nOf w) = w :=
  BitVec.eq_of_getLsbD_eq fun i hi => by
    rw [getLsbD_formatR, regField_xOf, regField_yOf]
    by_cases h : i < 4
    · simp [h, nOf]
    · by_cases h' : i < 8
      · simp [h, h', show i - 4 < 4 by omega, show 4 + (i - 4) = i by omega]
      · by_cases h'' : i < 12
        · simp [h, h', h'', show i - 8 < 4 by omega, show 8 + (i - 8) = i by omega]
        · simp [h, h', h'', topOf, show i - 12 < 4 by omega, show 12 + (i - 12) = i by omega]

/-! ### What the three decoder masks keep (R66) -/

/-- The mask 0xF000 keeps the top nibble. -/
theorem and_F000 (w : Word) : w &&& 0xF000 = formatR (topOf w) 0 0 0 :=
  BitVec.eq_of_getLsbD_eq fun i hi => by
    rw [BitVec.getLsbD_and, getLsbD_formatR]
    interval_cases i <;> simp [topOf] <;> decide

/-- The mask 0xF00F keeps the top and the low nibble. -/
theorem and_F00F (w : Word) : w &&& 0xF00F = formatR (topOf w) 0 0 (nOf w) :=
  BitVec.eq_of_getLsbD_eq fun i hi => by
    rw [BitVec.getLsbD_and, getLsbD_formatR]
    interval_cases i <;> simp [topOf, nOf] <;> decide

/-- The mask 0xF0FF keeps the top nibble and the low byte. -/
theorem and_F0FF (w : Word) : w &&& 0xF0FF = formatI (topOf w) 0 (kkOf w) :=
  BitVec.eq_of_getLsbD_eq fun i hi => by
    rw [BitVec.getLsbD_and, getLsbD_formatI]
    interval_cases i <;> simp [topOf, kkOf] <;> decide

/-- A word matches a row of mask 0xF000 exactly when its top nibble is the row's. -/
theorem match_F000 (w : Word) (t : Nibble) : w &&& 0xF000 = formatR t 0 0 0 ↔ topOf w = t := by
  rw [and_F000]
  exact ⟨fun h => by simpa using congrArg topOf h, fun h => by rw [h]⟩

/-- A word matches a row of mask 0xF00F exactly when its top and low nibbles are the row's. -/
theorem match_F00F (w : Word) (t c : Nibble) : w &&& 0xF00F = formatR t 0 0 c ↔ topOf w = t ∧ nOf w = c := by
  rw [and_F00F]
  exact ⟨fun h => ⟨by simpa using congrArg topOf h, by simpa using congrArg nOf h⟩, fun h => by rw [h.1, h.2]⟩

/-- A word matches a row of mask 0xF0FF exactly when its top nibble and low byte are the row's. -/
theorem match_F0FF (w : Word) (t : Nibble) (c : Byte) : w &&& 0xF0FF = formatI t 0 c ↔ topOf w = t ∧ kkOf w = c := by
  rw [and_F0FF]
  exact ⟨fun h => ⟨by simpa using congrArg topOf h, by simpa using congrArg kkOf h⟩, fun h => by rw [h.1, h.2]⟩

/-! ### The two-level dispatch, one lemma per entry of the tables (R63 to R65) -/

section
variable {w : Word}

theorem decode_jp (h : topOf w = 0x1) : decode w = .jp (nnnOf w) := by
  simp [decode, h]

theorem decode_call (h : topOf w = 0x2) : decode w = .call (nnnOf w) := by
  simp [decode, h]

theorem decode_seImm (h : topOf w = 0x3) : decode w = .seImm (xOf w) (kkOf w) := by
  simp [decode, h]

theorem decode_sneImm (h : topOf w = 0x4) : decode w = .sneImm (xOf w) (kkOf w) := by
  simp [decode, h]

theorem decode_seReg (h : topOf w = 0x5) : decode w = .seReg (xOf w) (yOf w) := by
  simp [decode, h]

theorem decode_ldImm (h : topOf w = 0x6) : decode w = .ldImm (xOf w) (kkOf w) := by
  simp [decode, h]

theorem decode_addImm (h : topOf w = 0x7) : decode w = .addImm (xOf w) (kkOf w) := by
  simp [decode, h]

theorem decode_sneReg (h : topOf w = 0x9) : decode w = .sneReg (xOf w) (yOf w) := by
  simp [decode, h]

theorem decode_ldI (h : topOf w = 0xA) : decode w = .ldI (nnnOf w) := by
  simp [decode, h]

theorem decode_jpV0 (h : topOf w = 0xB) : decode w = .jpV0 (nnnOf w) := by
  simp [decode, h]

theorem decode_rnd (h : topOf w = 0xC) : decode w = .rnd (xOf w) (kkOf w) := by
  simp [decode, h]

theorem decode_drw (h : topOf w = 0xD) : decode w = .drw (xOf w) (yOf w) (nOf w) := by
  simp [decode, h]

theorem decode_family0 (h : topOf w = 0x0) : decode w = decodeFamily0 w := by
  simp [decode, h]

theorem decode_family8 (h : topOf w = 0x8) : decode w = decodeFamily8 w := by
  simp [decode, h]

theorem decode_familyE (h : topOf w = 0xE) : decode w = decodeFamilyE w := by
  simp [decode, h]

theorem decode_familyF (h : topOf w = 0xF) : decode w = decodeFamilyF w := by
  simp [decode, h]

theorem decode_cls (h : topOf w = 0x0) (hn : nOf w = 0x0) : decode w = .cls := by
  simp [decode_family0 h, decodeFamily0, hn]

theorem decode_ret (h : topOf w = 0x0) (hn : nOf w = 0xE) : decode w = .ret := by
  simp [decode_family0 h, decodeFamily0, hn]

theorem decode_ldReg (h : topOf w = 0x8) (hn : nOf w = 0x0) : decode w = .ldReg (xOf w) (yOf w) := by
  simp [decode_family8 h, decodeFamily8, hn]

theorem decode_orReg (h : topOf w = 0x8) (hn : nOf w = 0x1) : decode w = .orReg (xOf w) (yOf w) := by
  simp [decode_family8 h, decodeFamily8, hn]

theorem decode_andReg (h : topOf w = 0x8) (hn : nOf w = 0x2) : decode w = .andReg (xOf w) (yOf w) := by
  simp [decode_family8 h, decodeFamily8, hn]

theorem decode_xorReg (h : topOf w = 0x8) (hn : nOf w = 0x3) : decode w = .xorReg (xOf w) (yOf w) := by
  simp [decode_family8 h, decodeFamily8, hn]

theorem decode_addReg (h : topOf w = 0x8) (hn : nOf w = 0x4) : decode w = .addReg (xOf w) (yOf w) := by
  simp [decode_family8 h, decodeFamily8, hn]

theorem decode_subReg (h : topOf w = 0x8) (hn : nOf w = 0x5) : decode w = .subReg (xOf w) (yOf w) := by
  simp [decode_family8 h, decodeFamily8, hn]

theorem decode_shr (h : topOf w = 0x8) (hn : nOf w = 0x6) : decode w = .shr (xOf w) (yOf w) := by
  simp [decode_family8 h, decodeFamily8, hn]

theorem decode_subnReg (h : topOf w = 0x8) (hn : nOf w = 0x7) : decode w = .subnReg (xOf w) (yOf w) := by
  simp [decode_family8 h, decodeFamily8, hn]

theorem decode_shl (h : topOf w = 0x8) (hn : nOf w = 0xE) : decode w = .shl (xOf w) (yOf w) := by
  simp [decode_family8 h, decodeFamily8, hn]

theorem decode_sknp (h : topOf w = 0xE) (hn : nOf w = 0x1) : decode w = .sknp (xOf w) := by
  simp [decode_familyE h, decodeFamilyE, hn]

theorem decode_skp (h : topOf w = 0xE) (hn : nOf w = 0xE) : decode w = .skp (xOf w) := by
  simp [decode_familyE h, decodeFamilyE, hn]

theorem decode_ldVxDT (h : topOf w = 0xF) (hk : kkOf w = 0x07) : decode w = .ldVxDT (xOf w) := by
  simp [decode_familyF h, decodeFamilyF, hk]

theorem decode_ldVxK (h : topOf w = 0xF) (hk : kkOf w = 0x0A) : decode w = .ldVxK (xOf w) := by
  simp [decode_familyF h, decodeFamilyF, hk]

theorem decode_ldDTVx (h : topOf w = 0xF) (hk : kkOf w = 0x15) : decode w = .ldDTVx (xOf w) := by
  simp [decode_familyF h, decodeFamilyF, hk]

theorem decode_ldSTVx (h : topOf w = 0xF) (hk : kkOf w = 0x18) : decode w = .ldSTVx (xOf w) := by
  simp [decode_familyF h, decodeFamilyF, hk]

theorem decode_addI (h : topOf w = 0xF) (hk : kkOf w = 0x1E) : decode w = .addI (xOf w) := by
  simp [decode_familyF h, decodeFamilyF, hk]

theorem decode_ldF (h : topOf w = 0xF) (hk : kkOf w = 0x29) : decode w = .ldF (xOf w) := by
  simp [decode_familyF h, decodeFamilyF, hk]

theorem decode_ldB (h : topOf w = 0xF) (hk : kkOf w = 0x33) : decode w = .ldB (xOf w) := by
  simp [decode_familyF h, decodeFamilyF, hk]

theorem decode_stRegs (h : topOf w = 0xF) (hk : kkOf w = 0x55) : decode w = .stRegs (xOf w) := by
  simp [decode_familyF h, decodeFamilyF, hk]

theorem decode_ldRegs (h : topOf w = 0xF) (hk : kkOf w = 0x65) : decode w = .ldRegs (xOf w) := by
  simp [decode_familyF h, decodeFamilyF, hk]

end

end Sys2Proof
end

