-- ==== Sys2Proof/Laws/Draw.lean ====
section
/-! SUPPORT. The sprite loops of DRW in closed form: each pixel is touched at most once (44_display.md R171(d)). -/

namespace Sys2Proof.Machine

/-- A pixel after one pixel was inverted. -/
theorem Screen.at_invert (scr : Screen) (px qx : Fin 64) (py qy : Fin 32) :
    (scr.invert px py).at qx qy = (scr.at qx qy ^^ decide (qx = px ∧ qy = py)) := by
  unfold Screen.at Screen.invert
  simp only [Fin.getElem_fin, Vector.getElem_set, Fin.ext_iff]
  by_cases hy : py.val = qy.val
  · by_cases hx : px.val = qx.val
    · simp [hy, hx]
    · simp [hy, hx, Ne.symm hx]
  · simp [hy, Ne.symm hy]

/-- Two screens with equal pixels are equal. -/
theorem Screen.ext_at {a b : Screen} (h : ∀ px py, a.at px py = b.at px py) : a = b :=
  Vector.ext fun j hj => Vector.ext fun k hk => h ⟨k, hk⟩ ⟨j, hj⟩

/-- Every pixel of a dark screen is off (R170). -/
@[simp] theorem Screen.at_dark (px : Fin 64) (py : Fin 32) : Screen.dark.at px py = false := by
  simp [Screen.at, Screen.dark]

/-- The first `k` columns of a sprite byte: which pixels they inverted, and whether one of them was on. -/
theorem drawByte_prefix (b : Byte) (X : Nat) (py : Fin 32) (d : Drawing) {k : Nat} (hk : k ≤ 8) :
    let e := (List.range k).foldl (fun d c => if b.getLsbD (7 - c) then drawPixel (wrapColumn (X + c)) py d else d) d
    (∀ qx qy, e.1.at qx qy = (d.1.at qx qy ^^
      (decide (qy = py ∧ (qx.val + 64 - X % 64) % 64 < k) && b.getLsbD (7 - (qx.val + 64 - X % 64) % 64)))) ∧
    (e.2 = true ↔ d.2 = true ∨ ∃ qx : Fin 64, (qx.val + 64 - X % 64) % 64 < k ∧
      b.getLsbD (7 - (qx.val + 64 - X % 64) % 64) = true ∧ d.1.at qx py = true) := by
  induction k with
  | zero => simp
  | succ k ih =>
    obtain ⟨ihp, ihf⟩ := ih (by omega)
    simp only [List.range_succ, List.foldl_append, List.foldl_cons, List.foldl_nil]
    generalize (List.range k).foldl _ d = e at ihp ihf ⊢
    have col : ∀ qx : Fin 64, (qx.val + 64 - X % 64) % 64 = k ↔ qx = wrapColumn (X + k) := by
      intro qx
      simp only [wrapColumn, Fin.ext_iff]
      omega
    by_cases hb : b.getLsbD (7 - k) = true
    · simp only [hb, if_true, drawPixel]
      refine ⟨fun qx qy => ?_, ?_⟩
      · rw [Screen.at_invert, ihp, Bool.xor_assoc]
        congr 1
        by_cases hq : qy = py
        · by_cases hc : qx = wrapColumn (X + k)
          · have := (col qx).mpr hc
            simp [hq, hc, hb, hc ▸ this]
          · have := mt (col qx).mp hc
            simp only [hq, hc, true_and, decide_false, Bool.xor_false, and_true]
            congr 2
            simp only [eq_iff_iff]
            omega
        · simp [hq]
      · rw [Bool.or_eq_true, ihf, ihp]
        have hw := (col (wrapColumn (X + k))).mpr rfl
        simp only [hw, Nat.lt_irrefl, and_false, decide_false, Bool.false_and, Bool.xor_false]
        constructor
        · rintro ((h | ⟨qx, h1, h2, h3⟩) | h)
          · exact .inl h
          · exact .inr ⟨qx, by omega, h2, h3⟩
          · exact .inr ⟨wrapColumn (X + k), by omega, by rw [hw]; exact hb, h⟩
        · rintro (h | ⟨qx, h1, h2, h3⟩)
          · exact .inl (.inl h)
          · by_cases hc : qx = wrapColumn (X + k)
            · exact .inr (hc ▸ h3)
            · exact .inl (.inr ⟨qx, by have := mt (col qx).mp hc; omega, h2, h3⟩)
    · simp only [hb]
      have same : ∀ qx : Fin 64, ((qx.val + 64 - X % 64) % 64 < k + 1 ∧
          b.getLsbD (7 - (qx.val + 64 - X % 64) % 64) = true) ↔ ((qx.val + 64 - X % 64) % 64 < k ∧
          b.getLsbD (7 - (qx.val + 64 - X % 64) % 64) = true) := by
        intro qx
        by_cases hc : (qx.val + 64 - X % 64) % 64 = k
        · simp [hc, hb]
        · have : (qx.val + 64 - X % 64) % 64 < k + 1 ↔ (qx.val + 64 - X % 64) % 64 < k := by omega
          rw [this]
      refine ⟨fun qx qy => ?_, ?_⟩
      · simp only [Bool.false_eq_true, if_false]
        rw [ihp]
        congr 1
        rw [Bool.eq_iff_iff]
        simp only [Bool.and_eq_true, decide_eq_true_eq, and_assoc, same]
      · simp only [Bool.false_eq_true, if_false]
        rw [ihf]
        simp only [← and_assoc, same]

/-- The rows of a sprite from row `r` on, at start coordinates `X`, `Y`: a pixel changes exactly where a sprite bit
of 1 lands on it, and the flag is set exactly where one lands on a pixel that was on (R171). -/
theorem drawRows_spec (X Y : Nat) (bs : List Byte) (r : Nat) (d : Drawing) (hr : r + bs.length ≤ 32) :
    (∀ px py, (drawRows X Y r bs d).1.at px py = (d.1.at px py ^^ spriteBit bs X (Y + r) px py)) ∧
    ((drawRows X Y r bs d).2 = true ↔
      d.2 = true ∨ ∃ px py, spriteBit bs X (Y + r) px py = true ∧ d.1.at px py = true) := by
  induction bs generalizing r d with
  | nil => simp [drawRows, spriteBit]
  | cons b bs ih =>
    simp only [List.length_cons] at hr
    obtain ⟨hp, hf⟩ := ih (r + 1) (drawByte b X (wrapRow (Y + r)) d) (by omega)
    obtain ⟨bp, bf⟩ := drawByte_prefix b X (wrapRow (Y + r)) d (Nat.le_refl 8)
    have split : ∀ px py, spriteBit (b :: bs) X (Y + r) px py =
        ((decide (py = wrapRow (Y + r) ∧ (px.val + 64 - X % 64) % 64 < 8) &&
          b.getLsbD (7 - (px.val + 64 - X % 64) % 64)) ^^ spriteBit bs X (Y + (r + 1)) px py) := by
      intro px py
      simp only [spriteBit, List.length_cons]
      by_cases hq : py = wrapRow (Y + r)
      · have hv : py.val = (Y + r) % 32 := congrArg Fin.val hq
        have h0 : (py.val + 32 - (Y + r) % 32) % 32 = 0 := by omega
        have h1 : (py.val + 32 - (Y + (r + 1)) % 32) % 32 = 31 := by omega
        simp [hq, hq ▸ h0, hq ▸ h1, show ¬31 < bs.length by omega]
      · have hv : py.val ≠ (Y + r) % 32 := fun h => hq (Fin.ext h)
        obtain ⟨j, hj⟩ : ∃ j, (py.val + 32 - (Y + r) % 32) % 32 = j + 1 :=
          ⟨(py.val + 32 - (Y + r) % 32) % 32 - 1, by omega⟩
        have h1 : (py.val + 32 - (Y + (r + 1)) % 32) % 32 = j := by omega
        simp [hq, hj, h1]
    have disj : ∀ px py, ¬((py = wrapRow (Y + r)) ∧ spriteBit bs X (Y + (r + 1)) px py = true) := by
      rintro px py ⟨hq, h⟩
      have hv : py.val = (Y + r) % 32 := congrArg Fin.val hq
      simp only [spriteBit, show (py.val + 32 - (Y + (r + 1)) % 32) % 32 = 31 by omega, Bool.and_eq_true,
        decide_eq_true_eq] at h
      omega
    refine ⟨fun px py => ?_, ?_⟩
    · rw [drawRows, hp, split, ← Bool.xor_assoc]
      congr 1
      exact bp px py
    · rw [drawRows, hf]
      unfold drawByte
      rw [bf]
      constructor
      · rintro ((h | ⟨px, h1, h2, h3⟩) | ⟨px, py, h1, h2⟩)
        · exact .inl h
        · refine .inr ⟨px, wrapRow (Y + r), ?_, h3⟩
          have := disj px (wrapRow (Y + r))
          simp only [true_and, Bool.not_eq_true] at this
          rw [split, this]
          simp [h1, h2]
        · have hq : py ≠ wrapRow (Y + r) := fun h => disj px py ⟨h, h1⟩
          rw [bp] at h2
          refine .inr ⟨px, py, ?_, by simpa [hq] using h2⟩
          rw [split, h1]
          simp [hq]
      · rintro (h | ⟨px, py, h1, h2⟩)
        · exact .inl (.inl h)
        · rw [split] at h1
          by_cases hq : py = wrapRow (Y + r)
          · have := disj px py
            simp only [hq, true_and, Bool.not_eq_true] at this
            rw [hq, this] at h1
            simp only [true_and, Bool.xor_false, Bool.and_eq_true, decide_eq_true_eq] at h1
            exact .inl (.inr ⟨px, h1.1, h1.2, hq ▸ h2⟩)
          · refine .inr ⟨px, py, by simpa [hq] using h1, ?_⟩
            rw [bp]
            simpa [hq] using h2

end Sys2Proof.Machine
end

