-- ==== Sys2Proof/Laws/Memory.lean ====
section
/-! SUPPORT. Laws of the memory list: reads after writes, and that every operation keeps the canonical form. -/

namespace Sys2Proof.Machine

/-- Below every listed address, memory reads as the reset contents. -/
theorem Memory.read_eq_resetByte {m : Memory} {a : Nat} (h : ∀ c ∈ m, c.1 ≠ a) :
    Memory.read m a = Config.resetByte a := by
  induction m with
  | nil => rfl
  | cons c m ih =>
    simp only [List.mem_cons, forall_eq_or_imp] at h
    simp [Memory.read, h.1, ih h.2]

/-- What `keep` reads as, before cells of higher addresses. -/
theorem Memory.read_keep {m : Memory} {a : Nat} (b : Byte) (h : ∀ c ∈ m, a < c.1) (k : Nat) :
    Memory.read (Memory.keep a b m) k = if k = a then b else Memory.read m k := by
  unfold Memory.keep
  split
  · rename_i hb
    split
    · rename_i hk
      subst hk hb
      exact Memory.read_eq_resetByte fun c hc => Nat.ne_of_gt (h c hc)
    · rfl
  · simp only [Memory.read, eq_comm]

/-- A read after a write gives the byte written at its address and the old byte elsewhere (R48, R50). -/
theorem Memory.read_write {m : Memory} (hm : m.Pairwise fun c d => c.1 < d.1) (a : Nat) (b : Byte) (k : Nat) :
    Memory.read (Memory.write m a b) k = if k = a then b else Memory.read m k := by
  induction m with
  | nil => exact Memory.read_keep b (by simp) k
  | cons c m ih =>
    rw [List.pairwise_cons] at hm
    unfold Memory.write
    split
    · simp only [Memory.read, ih hm.2]
      split <;> split <;> first | rfl | omega
    · split
      · rename_i hc
        rw [Memory.read_keep b (hc ▸ hm.1) k]
        by_cases hk : k = a
        · simp [hk]
        · simp [Memory.read, hk, hc, Ne.symm hk]
      · rename_i h1 h2
        refine Memory.read_keep b (fun d hd => ?_) k
        rcases List.mem_cons.mp hd with rfl | hd
        · omega
        · exact Nat.lt_trans (by omega) (hm.1 d hd)

/-- Every address a written list names was named before or is the one written. -/
theorem Memory.mem_write {m : Memory} {a : Nat} {b : Byte} {d : Host.Cell} (h : d ∈ Memory.write m a b) :
    d ∈ m ∨ (d = (a, b) ∧ b ≠ Config.resetByte a) := by
  have keep : ∀ {l : Memory}, d ∈ Memory.keep a b l → d ∈ l ∨ (d = (a, b) ∧ b ≠ Config.resetByte a) := by
    intro l hl
    unfold Memory.keep at hl
    split at hl
    · exact .inl hl
    · rename_i hb
      exact (List.mem_cons.mp hl).elim (fun h => .inr ⟨h, hb⟩) .inl
  induction m with
  | nil => exact keep h
  | cons c m ih =>
    unfold Memory.write at h
    split at h
    · rcases List.mem_cons.mp h with rfl | h
      · exact .inl (List.mem_cons_self ..)
      · exact (ih h).imp_left (List.mem_cons_of_mem _)
    · split at h
      · exact (keep h).imp_left (List.mem_cons_of_mem _)
      · exact keep h

/-- `keep` before cells of higher addresses keeps the rising order. -/
theorem Memory.keep_sorted {m : Memory} (hm : m.Pairwise fun c d => c.1 < d.1) {a : Nat} (b : Byte)
    (h : ∀ c ∈ m, a < c.1) : (Memory.keep a b m).Pairwise fun c d => c.1 < d.1 := by
  unfold Memory.keep
  split
  · exact hm
  · exact List.pairwise_cons.mpr ⟨h, hm⟩

/-- A write keeps the addresses strictly rising. -/
theorem Memory.write_sorted {m : Memory} (hm : m.Pairwise fun c d => c.1 < d.1) (a : Nat) (b : Byte) :
    (Memory.write m a b).Pairwise fun c d => c.1 < d.1 := by
  induction m with
  | nil => exact Memory.keep_sorted hm b (by simp)
  | cons c m ih =>
    rw [List.pairwise_cons] at hm
    unfold Memory.write
    split
    · rename_i hc
      refine List.pairwise_cons.mpr ⟨fun d hd => ?_, ih hm.2⟩
      rcases Memory.mem_write hd with hd | ⟨rfl, -⟩
      · exact hm.1 d hd
      · exact hc
    · split
      · rename_i hc
        exact Memory.keep_sorted hm.2 b (hc ▸ hm.1)
      · rename_i h1 h2
        refine Memory.keep_sorted (List.pairwise_cons.mpr hm) b fun d hd => ?_
        rcases List.mem_cons.mp hd with rfl | hd
        · omega
        · exact Nat.lt_trans (by omega) (hm.1 d hd)

/-- A write inside memory keeps the canonical form. -/
theorem Memory.write_wf {m : Memory} (hm : Memory.wf m) {a : Nat} (ha : a < Config.memBytes) (b : Byte) :
    Memory.wf (Memory.write m a b) := by
  refine ⟨Memory.write_sorted hm.1 a b, fun d hd => ?_⟩
  rcases Memory.mem_write hd with hd | ⟨rfl, hb⟩
  · exact hm.2 d hd
  · exact ⟨ha, hb⟩

/-- Storing bytes inside memory keeps the canonical form. -/
theorem Memory.writeBytes_wf {m : Memory} (hm : Memory.wf m) {a : Nat} {bs : List Byte}
    (h : bs = [] ∨ a + bs.length ≤ Config.memBytes) : Memory.wf (Memory.writeBytes m a bs) := by
  induction bs generalizing m a with
  | nil => exact hm
  | cons b bs ih =>
    have h' : a + (bs.length + 1) ≤ Config.memBytes := by simpa using h
    exact ih (Memory.write_wf hm (by omega) b) (.inr (by omega))

/-- Storing bytes keeps the addresses strictly rising. -/
theorem Memory.writeBytes_sorted {m : Memory} (hm : m.Pairwise fun c d => c.1 < d.1) (a : Nat) (bs : List Byte) :
    (Memory.writeBytes m a bs).Pairwise fun c d => c.1 < d.1 := by
  induction bs generalizing m a with
  | nil => exact hm
  | cons b bs ih => exact ih (Memory.write_sorted hm a b) (a + 1)

/-- A read after bytes were stored from `a` on: the stored byte inside the range, the old byte outside it. -/
theorem Memory.read_writeBytes {m : Memory} (hm : m.Pairwise fun c d => c.1 < d.1) (a : Nat) (bs : List Byte)
    (k : Nat) :
    Memory.read (Memory.writeBytes m a bs) k =
      if a ≤ k ∧ k < a + bs.length then bs.getD (k - a) 0 else Memory.read m k := by
  induction bs generalizing m a with
  | nil => simp [Memory.writeBytes]
  | cons b bs ih =>
    simp only [Memory.writeBytes, ih (Memory.write_sorted hm a b) (a + 1), Memory.read_write hm, List.length_cons]
    rcases Nat.lt_trichotomy k a with h | rfl | h
    · simp [show ¬(a + 1 ≤ k) by omega, show ¬(a ≤ k) by omega, Nat.ne_of_lt h]
    · simp
    · obtain ⟨j, rfl⟩ : ∃ j, k = a + 1 + j := ⟨k - (a + 1), by omega⟩
      by_cases hj : j < bs.length
      · simp [hj, show a + 1 + j - a = j + 1 by omega, show a ≤ a + 1 + j by omega,
          show a + 1 + j < a + (bs.length + 1) by omega]
      · simp [show ¬(a + 1 + j < a + (bs.length + 1)) by omega, show ¬(a + 1 + j < a + 1 + bs.length) by omega,
          show a + 1 + j ≠ a by omega]

/-- The length of a byte sequence read. -/
@[simp] theorem Memory.length_readBytes (m : Memory) (a n : Nat) : (Memory.readBytes m a n).length = n := by
  induction n generalizing a with
  | zero => rfl
  | succ n ih => simp [Memory.readBytes, ih]

/-- Byte `r` of a byte sequence read is the byte at `a + r` (R43). -/
theorem Memory.getD_readBytes (m : Memory) (a n : Nat) {r : Nat} (h : r < n) :
    (Memory.readBytes m a n).getD r 0 = Memory.read m (a + r) := by
  induction n generalizing a r with
  | zero => omega
  | succ n ih =>
    cases r with
    | zero => simp [Memory.readBytes]
    | succ r =>
      have := ih (a + 1) (r := r) (by omega)
      simp only [Memory.readBytes, List.getD_cons_succ, this]
      congr 1
      omega

end Sys2Proof.Machine
end

