-- ==== Sys2Proof/Laws/State.lean ====
section
/-! SUPPORT. One lemma per field per update of State, so that no proof unfolds a record update. -/

namespace Sys2Proof.Machine

/-! ### setReg -/

@[simp] theorem State.setReg_v (s : State) (x : Reg) (b : Byte) :
    (s.setReg x b).v = s.v.set x b := rfl
@[simp] theorem State.setReg_mem (s : State) (x : Reg) (b : Byte) :
    (s.setReg x b).mem = s.mem := rfl
@[simp] theorem State.setReg_pc (s : State) (x : Reg) (b : Byte) :
    (s.setReg x b).pc = s.pc := rfl
@[simp] theorem State.setReg_i (s : State) (x : Reg) (b : Byte) :
    (s.setReg x b).i = s.i := rfl
@[simp] theorem State.setReg_stack (s : State) (x : Reg) (b : Byte) :
    (s.setReg x b).stack = s.stack := rfl
@[simp] theorem State.setReg_sp (s : State) (x : Reg) (b : Byte) :
    (s.setReg x b).sp = s.sp := rfl
@[simp] theorem State.setReg_dt (s : State) (x : Reg) (b : Byte) :
    (s.setReg x b).dt = s.dt := rfl
@[simp] theorem State.setReg_st (s : State) (x : Reg) (b : Byte) :
    (s.setReg x b).st = s.st := rfl
@[simp] theorem State.setReg_key (s : State) (x : Reg) (b : Byte) :
    (s.setReg x b).key = s.key := rfl
@[simp] theorem State.setReg_screen (s : State) (x : Reg) (b : Byte) :
    (s.setReg x b).screen = s.screen := rfl
@[simp] theorem State.setReg_opcode (s : State) (x : Reg) (b : Byte) :
    (s.setReg x b).opcode = s.opcode := rfl
@[simp] theorem State.setReg_fault (s : State) (x : Reg) (b : Byte) :
    (s.setReg x b).fault = s.fault := rfl
@[simp] theorem State.setReg_keysIn (s : State) (x : Reg) (b : Byte) :
    (s.setReg x b).keysIn = s.keysIn := rfl
@[simp] theorem State.setReg_rndIn (s : State) (x : Reg) (b : Byte) :
    (s.setReg x b).rndIn = s.rndIn := rfl
@[simp] theorem State.setReg_draws (s : State) (x : Reg) (b : Byte) :
    (s.setReg x b).draws = s.draws := rfl

/-! ### setFlag -/

@[simp] theorem State.setFlag_v (s : State) (f : Bool) :
    (s.setFlag f).v = s.v.set flagReg (flagByte f) := rfl
@[simp] theorem State.setFlag_mem (s : State) (f : Bool) :
    (s.setFlag f).mem = s.mem := rfl
@[simp] theorem State.setFlag_pc (s : State) (f : Bool) :
    (s.setFlag f).pc = s.pc := rfl
@[simp] theorem State.setFlag_i (s : State) (f : Bool) :
    (s.setFlag f).i = s.i := rfl
@[simp] theorem State.setFlag_stack (s : State) (f : Bool) :
    (s.setFlag f).stack = s.stack := rfl
@[simp] theorem State.setFlag_sp (s : State) (f : Bool) :
    (s.setFlag f).sp = s.sp := rfl
@[simp] theorem State.setFlag_dt (s : State) (f : Bool) :
    (s.setFlag f).dt = s.dt := rfl
@[simp] theorem State.setFlag_st (s : State) (f : Bool) :
    (s.setFlag f).st = s.st := rfl
@[simp] theorem State.setFlag_key (s : State) (f : Bool) :
    (s.setFlag f).key = s.key := rfl
@[simp] theorem State.setFlag_screen (s : State) (f : Bool) :
    (s.setFlag f).screen = s.screen := rfl
@[simp] theorem State.setFlag_opcode (s : State) (f : Bool) :
    (s.setFlag f).opcode = s.opcode := rfl
@[simp] theorem State.setFlag_fault (s : State) (f : Bool) :
    (s.setFlag f).fault = s.fault := rfl
@[simp] theorem State.setFlag_keysIn (s : State) (f : Bool) :
    (s.setFlag f).keysIn = s.keysIn := rfl
@[simp] theorem State.setFlag_rndIn (s : State) (f : Bool) :
    (s.setFlag f).rndIn = s.rndIn := rfl
@[simp] theorem State.setFlag_draws (s : State) (f : Bool) :
    (s.setFlag f).draws = s.draws := rfl

/-! ### setResultAndFlag -/

@[simp] theorem State.setResultAndFlag_v (s : State) (x : Reg) (r : Byte) (f : Bool) :
    (s.setResultAndFlag x r f).v = (s.v.set x r).set flagReg (flagByte f) := rfl
@[simp] theorem State.setResultAndFlag_mem (s : State) (x : Reg) (r : Byte) (f : Bool) :
    (s.setResultAndFlag x r f).mem = s.mem := rfl
@[simp] theorem State.setResultAndFlag_pc (s : State) (x : Reg) (r : Byte) (f : Bool) :
    (s.setResultAndFlag x r f).pc = s.pc := rfl
@[simp] theorem State.setResultAndFlag_i (s : State) (x : Reg) (r : Byte) (f : Bool) :
    (s.setResultAndFlag x r f).i = s.i := rfl
@[simp] theorem State.setResultAndFlag_stack (s : State) (x : Reg) (r : Byte) (f : Bool) :
    (s.setResultAndFlag x r f).stack = s.stack := rfl
@[simp] theorem State.setResultAndFlag_sp (s : State) (x : Reg) (r : Byte) (f : Bool) :
    (s.setResultAndFlag x r f).sp = s.sp := rfl
@[simp] theorem State.setResultAndFlag_dt (s : State) (x : Reg) (r : Byte) (f : Bool) :
    (s.setResultAndFlag x r f).dt = s.dt := rfl
@[simp] theorem State.setResultAndFlag_st (s : State) (x : Reg) (r : Byte) (f : Bool) :
    (s.setResultAndFlag x r f).st = s.st := rfl
@[simp] theorem State.setResultAndFlag_key (s : State) (x : Reg) (r : Byte) (f : Bool) :
    (s.setResultAndFlag x r f).key = s.key := rfl
@[simp] theorem State.setResultAndFlag_screen (s : State) (x : Reg) (r : Byte) (f : Bool) :
    (s.setResultAndFlag x r f).screen = s.screen := rfl
@[simp] theorem State.setResultAndFlag_opcode (s : State) (x : Reg) (r : Byte) (f : Bool) :
    (s.setResultAndFlag x r f).opcode = s.opcode := rfl
@[simp] theorem State.setResultAndFlag_fault (s : State) (x : Reg) (r : Byte) (f : Bool) :
    (s.setResultAndFlag x r f).fault = s.fault := rfl
@[simp] theorem State.setResultAndFlag_keysIn (s : State) (x : Reg) (r : Byte) (f : Bool) :
    (s.setResultAndFlag x r f).keysIn = s.keysIn := rfl
@[simp] theorem State.setResultAndFlag_rndIn (s : State) (x : Reg) (r : Byte) (f : Bool) :
    (s.setResultAndFlag x r f).rndIn = s.rndIn := rfl
@[simp] theorem State.setResultAndFlag_draws (s : State) (x : Reg) (r : Byte) (f : Bool) :
    (s.setResultAndFlag x r f).draws = s.draws := rfl

/-! ### setRegsUpTo -/

@[simp] theorem State.setRegsUpTo_v (s : State) (x : Reg) (g : Nat → Byte) :
    (s.setRegsUpTo x g).v = registersUpTo s.v x g := by dsimp only [State.setRegsUpTo]
@[simp] theorem State.setRegsUpTo_mem (s : State) (x : Reg) (g : Nat → Byte) :
    (s.setRegsUpTo x g).mem = s.mem := by dsimp only [State.setRegsUpTo]
@[simp] theorem State.setRegsUpTo_pc (s : State) (x : Reg) (g : Nat → Byte) :
    (s.setRegsUpTo x g).pc = s.pc := by dsimp only [State.setRegsUpTo]
@[simp] theorem State.setRegsUpTo_i (s : State) (x : Reg) (g : Nat → Byte) :
    (s.setRegsUpTo x g).i = s.i := by dsimp only [State.setRegsUpTo]
@[simp] theorem State.setRegsUpTo_stack (s : State) (x : Reg) (g : Nat → Byte) :
    (s.setRegsUpTo x g).stack = s.stack := by dsimp only [State.setRegsUpTo]
@[simp] theorem State.setRegsUpTo_sp (s : State) (x : Reg) (g : Nat → Byte) :
    (s.setRegsUpTo x g).sp = s.sp := by dsimp only [State.setRegsUpTo]
@[simp] theorem State.setRegsUpTo_dt (s : State) (x : Reg) (g : Nat → Byte) :
    (s.setRegsUpTo x g).dt = s.dt := by dsimp only [State.setRegsUpTo]
@[simp] theorem State.setRegsUpTo_st (s : State) (x : Reg) (g : Nat → Byte) :
    (s.setRegsUpTo x g).st = s.st := by dsimp only [State.setRegsUpTo]
@[simp] theorem State.setRegsUpTo_key (s : State) (x : Reg) (g : Nat → Byte) :
    (s.setRegsUpTo x g).key = s.key := by dsimp only [State.setRegsUpTo]
@[simp] theorem State.setRegsUpTo_screen (s : State) (x : Reg) (g : Nat → Byte) :
    (s.setRegsUpTo x g).screen = s.screen := by dsimp only [State.setRegsUpTo]
@[simp] theorem State.setRegsUpTo_opcode (s : State) (x : Reg) (g : Nat → Byte) :
    (s.setRegsUpTo x g).opcode = s.opcode := by dsimp only [State.setRegsUpTo]
@[simp] theorem State.setRegsUpTo_fault (s : State) (x : Reg) (g : Nat → Byte) :
    (s.setRegsUpTo x g).fault = s.fault := by dsimp only [State.setRegsUpTo]
@[simp] theorem State.setRegsUpTo_keysIn (s : State) (x : Reg) (g : Nat → Byte) :
    (s.setRegsUpTo x g).keysIn = s.keysIn := by dsimp only [State.setRegsUpTo]
@[simp] theorem State.setRegsUpTo_rndIn (s : State) (x : Reg) (g : Nat → Byte) :
    (s.setRegsUpTo x g).rndIn = s.rndIn := by dsimp only [State.setRegsUpTo]
@[simp] theorem State.setRegsUpTo_draws (s : State) (x : Reg) (g : Nat → Byte) :
    (s.setRegsUpTo x g).draws = s.draws := by dsimp only [State.setRegsUpTo]

/-! ### recordFault -/

@[simp] theorem State.recordFault_v (s : State) (c : FaultCause) (p o n : Word) :
    (s.recordFault c p o n).v = s.v := rfl
@[simp] theorem State.recordFault_mem (s : State) (c : FaultCause) (p o n : Word) :
    (s.recordFault c p o n).mem = s.mem := rfl
@[simp] theorem State.recordFault_pc (s : State) (c : FaultCause) (p o n : Word) :
    (s.recordFault c p o n).pc = s.pc := rfl
@[simp] theorem State.recordFault_i (s : State) (c : FaultCause) (p o n : Word) :
    (s.recordFault c p o n).i = s.i := rfl
@[simp] theorem State.recordFault_stack (s : State) (c : FaultCause) (p o n : Word) :
    (s.recordFault c p o n).stack = s.stack := rfl
@[simp] theorem State.recordFault_sp (s : State) (c : FaultCause) (p o n : Word) :
    (s.recordFault c p o n).sp = s.sp := rfl
@[simp] theorem State.recordFault_dt (s : State) (c : FaultCause) (p o n : Word) :
    (s.recordFault c p o n).dt = s.dt := rfl
@[simp] theorem State.recordFault_st (s : State) (c : FaultCause) (p o n : Word) :
    (s.recordFault c p o n).st = s.st := rfl
@[simp] theorem State.recordFault_key (s : State) (c : FaultCause) (p o n : Word) :
    (s.recordFault c p o n).key = s.key := rfl
@[simp] theorem State.recordFault_screen (s : State) (c : FaultCause) (p o n : Word) :
    (s.recordFault c p o n).screen = s.screen := rfl
@[simp] theorem State.recordFault_opcode (s : State) (c : FaultCause) (p o n : Word) :
    (s.recordFault c p o n).opcode = s.opcode := rfl
@[simp] theorem State.recordFault_fault (s : State) (c : FaultCause) (p o n : Word) :
    (s.recordFault c p o n).fault = ⟨c, p, o, n⟩ := rfl
@[simp] theorem State.recordFault_keysIn (s : State) (c : FaultCause) (p o n : Word) :
    (s.recordFault c p o n).keysIn = s.keysIn := rfl
@[simp] theorem State.recordFault_rndIn (s : State) (c : FaultCause) (p o n : Word) :
    (s.recordFault c p o n).rndIn = s.rndIn := rfl
@[simp] theorem State.recordFault_draws (s : State) (c : FaultCause) (p o n : Word) :
    (s.recordFault c p o n).draws = s.draws := rfl

/-! ### push -/

@[simp] theorem State.push_v (s : State) (w : Word) :
    (s.push w).v = s.v := rfl
@[simp] theorem State.push_mem (s : State) (w : Word) :
    (s.push w).mem = s.mem := rfl
@[simp] theorem State.push_pc (s : State) (w : Word) :
    (s.push w).pc = s.pc := rfl
@[simp] theorem State.push_i (s : State) (w : Word) :
    (s.push w).i = s.i := rfl
@[simp] theorem State.push_stack (s : State) (w : Word) :
    (s.push w).stack = s.stack.setIfInBounds s.sp.toNat w := rfl
@[simp] theorem State.push_sp (s : State) (w : Word) :
    (s.push w).sp = s.sp + 1 := rfl
@[simp] theorem State.push_dt (s : State) (w : Word) :
    (s.push w).dt = s.dt := rfl
@[simp] theorem State.push_st (s : State) (w : Word) :
    (s.push w).st = s.st := rfl
@[simp] theorem State.push_key (s : State) (w : Word) :
    (s.push w).key = s.key := rfl
@[simp] theorem State.push_screen (s : State) (w : Word) :
    (s.push w).screen = s.screen := rfl
@[simp] theorem State.push_opcode (s : State) (w : Word) :
    (s.push w).opcode = s.opcode := rfl
@[simp] theorem State.push_fault (s : State) (w : Word) :
    (s.push w).fault = s.fault := rfl
@[simp] theorem State.push_keysIn (s : State) (w : Word) :
    (s.push w).keysIn = s.keysIn := rfl
@[simp] theorem State.push_rndIn (s : State) (w : Word) :
    (s.push w).rndIn = s.rndIn := rfl
@[simp] theorem State.push_draws (s : State) (w : Word) :
    (s.push w).draws = s.draws := rfl

/-! ### sampleKeys -/

@[simp] theorem State.sampleKeys_v (s : State) :
    (s.sampleKeys).v = s.v := rfl
@[simp] theorem State.sampleKeys_mem (s : State) :
    (s.sampleKeys).mem = s.mem := rfl
@[simp] theorem State.sampleKeys_pc (s : State) :
    (s.sampleKeys).pc = s.pc := rfl
@[simp] theorem State.sampleKeys_i (s : State) :
    (s.sampleKeys).i = s.i := rfl
@[simp] theorem State.sampleKeys_stack (s : State) :
    (s.sampleKeys).stack = s.stack := rfl
@[simp] theorem State.sampleKeys_sp (s : State) :
    (s.sampleKeys).sp = s.sp := rfl
@[simp] theorem State.sampleKeys_dt (s : State) :
    (s.sampleKeys).dt = s.dt := rfl
@[simp] theorem State.sampleKeys_st (s : State) :
    (s.sampleKeys).st = s.st := rfl
@[simp] theorem State.sampleKeys_key (s : State) :
    (s.sampleKeys).key = s.presentedKeys := rfl
@[simp] theorem State.sampleKeys_screen (s : State) :
    (s.sampleKeys).screen = s.screen := rfl
@[simp] theorem State.sampleKeys_opcode (s : State) :
    (s.sampleKeys).opcode = s.opcode := rfl
@[simp] theorem State.sampleKeys_fault (s : State) :
    (s.sampleKeys).fault = s.fault := rfl
@[simp] theorem State.sampleKeys_keysIn (s : State) :
    (s.sampleKeys).keysIn = s.keysIn.tail := rfl
@[simp] theorem State.sampleKeys_rndIn (s : State) :
    (s.sampleKeys).rndIn = s.rndIn := rfl
@[simp] theorem State.sampleKeys_draws (s : State) :
    (s.sampleKeys).draws = s.draws := rfl

/-! ### consumeDraw -/

@[simp] theorem State.consumeDraw_v (s : State) :
    (s.consumeDraw).v = s.v := rfl
@[simp] theorem State.consumeDraw_mem (s : State) :
    (s.consumeDraw).mem = s.mem := rfl
@[simp] theorem State.consumeDraw_pc (s : State) :
    (s.consumeDraw).pc = s.pc := rfl
@[simp] theorem State.consumeDraw_i (s : State) :
    (s.consumeDraw).i = s.i := rfl
@[simp] theorem State.consumeDraw_stack (s : State) :
    (s.consumeDraw).stack = s.stack := rfl
@[simp] theorem State.consumeDraw_sp (s : State) :
    (s.consumeDraw).sp = s.sp := rfl
@[simp] theorem State.consumeDraw_dt (s : State) :
    (s.consumeDraw).dt = s.dt := rfl
@[simp] theorem State.consumeDraw_st (s : State) :
    (s.consumeDraw).st = s.st := rfl
@[simp] theorem State.consumeDraw_key (s : State) :
    (s.consumeDraw).key = s.key := rfl
@[simp] theorem State.consumeDraw_screen (s : State) :
    (s.consumeDraw).screen = s.screen := rfl
@[simp] theorem State.consumeDraw_opcode (s : State) :
    (s.consumeDraw).opcode = s.opcode := rfl
@[simp] theorem State.consumeDraw_fault (s : State) :
    (s.consumeDraw).fault = s.fault := rfl
@[simp] theorem State.consumeDraw_keysIn (s : State) :
    (s.consumeDraw).keysIn = s.keysIn := rfl
@[simp] theorem State.consumeDraw_rndIn (s : State) :
    (s.consumeDraw).rndIn = s.rndIn.tail := rfl
@[simp] theorem State.consumeDraw_draws (s : State) :
    (s.consumeDraw).draws = s.draws + 1 := rfl

/-! ### latch -/

@[simp] theorem State.latch_v (s : State) :
    (s.latch).v = s.v := rfl
@[simp] theorem State.latch_mem (s : State) :
    (s.latch).mem = s.mem := rfl
@[simp] theorem State.latch_pc (s : State) :
    (s.latch).pc = s.pc + 2 := rfl
@[simp] theorem State.latch_i (s : State) :
    (s.latch).i = s.i := rfl
@[simp] theorem State.latch_stack (s : State) :
    (s.latch).stack = s.stack := rfl
@[simp] theorem State.latch_sp (s : State) :
    (s.latch).sp = s.sp := rfl
@[simp] theorem State.latch_dt (s : State) :
    (s.latch).dt = s.dt := rfl
@[simp] theorem State.latch_st (s : State) :
    (s.latch).st = s.st := rfl
@[simp] theorem State.latch_key (s : State) :
    (s.latch).key = s.key := rfl
@[simp] theorem State.latch_screen (s : State) :
    (s.latch).screen = s.screen := rfl
@[simp] theorem State.latch_opcode (s : State) :
    (s.latch).opcode = s.fetchWord := rfl
@[simp] theorem State.latch_fault (s : State) :
    (s.latch).fault = s.fault := rfl
@[simp] theorem State.latch_keysIn (s : State) :
    (s.latch).keysIn = s.keysIn := rfl
@[simp] theorem State.latch_rndIn (s : State) :
    (s.latch).rndIn = s.rndIn := rfl
@[simp] theorem State.latch_draws (s : State) :
    (s.latch).draws = s.draws := rfl

/-! ### tickTimers -/

@[simp] theorem State.tickTimers_v (s : State) :
    (s.tickTimers).v = s.v := rfl
@[simp] theorem State.tickTimers_mem (s : State) :
    (s.tickTimers).mem = s.mem := rfl
@[simp] theorem State.tickTimers_pc (s : State) :
    (s.tickTimers).pc = s.pc := rfl
@[simp] theorem State.tickTimers_i (s : State) :
    (s.tickTimers).i = s.i := rfl
@[simp] theorem State.tickTimers_stack (s : State) :
    (s.tickTimers).stack = s.stack := rfl
@[simp] theorem State.tickTimers_sp (s : State) :
    (s.tickTimers).sp = s.sp := rfl
@[simp] theorem State.tickTimers_dt (s : State) :
    (s.tickTimers).dt = countDown s.dt := rfl
@[simp] theorem State.tickTimers_st (s : State) :
    (s.tickTimers).st = countDown s.st := rfl
@[simp] theorem State.tickTimers_key (s : State) :
    (s.tickTimers).key = s.key := rfl
@[simp] theorem State.tickTimers_screen (s : State) :
    (s.tickTimers).screen = s.screen := rfl
@[simp] theorem State.tickTimers_opcode (s : State) :
    (s.tickTimers).opcode = s.opcode := rfl
@[simp] theorem State.tickTimers_fault (s : State) :
    (s.tickTimers).fault = s.fault := rfl
@[simp] theorem State.tickTimers_keysIn (s : State) :
    (s.tickTimers).keysIn = s.keysIn := rfl
@[simp] theorem State.tickTimers_rndIn (s : State) :
    (s.tickTimers).rndIn = s.rndIn := rfl
@[simp] theorem State.tickTimers_draws (s : State) :
    (s.tickTimers).draws = s.draws := rfl

/-! ### skipIf -/

@[simp] theorem State.skipIf_v (s : State) (c : Bool) : (s.skipIf c).v = s.v := by
  cases c <;> rfl
@[simp] theorem State.skipIf_mem (s : State) (c : Bool) : (s.skipIf c).mem = s.mem := by
  cases c <;> rfl
@[simp] theorem State.skipIf_pc (s : State) (c : Bool) : (s.skipIf c).pc = if c then s.pc + 2 else s.pc := by
  cases c <;> rfl
@[simp] theorem State.skipIf_i (s : State) (c : Bool) : (s.skipIf c).i = s.i := by
  cases c <;> rfl
@[simp] theorem State.skipIf_stack (s : State) (c : Bool) : (s.skipIf c).stack = s.stack := by
  cases c <;> rfl
@[simp] theorem State.skipIf_sp (s : State) (c : Bool) : (s.skipIf c).sp = s.sp := by
  cases c <;> rfl
@[simp] theorem State.skipIf_dt (s : State) (c : Bool) : (s.skipIf c).dt = s.dt := by
  cases c <;> rfl
@[simp] theorem State.skipIf_st (s : State) (c : Bool) : (s.skipIf c).st = s.st := by
  cases c <;> rfl
@[simp] theorem State.skipIf_key (s : State) (c : Bool) : (s.skipIf c).key = s.key := by
  cases c <;> rfl
@[simp] theorem State.skipIf_screen (s : State) (c : Bool) : (s.skipIf c).screen = s.screen := by
  cases c <;> rfl
@[simp] theorem State.skipIf_opcode (s : State) (c : Bool) : (s.skipIf c).opcode = s.opcode := by
  cases c <;> rfl
@[simp] theorem State.skipIf_fault (s : State) (c : Bool) : (s.skipIf c).fault = s.fault := by
  cases c <;> rfl
@[simp] theorem State.skipIf_keysIn (s : State) (c : Bool) : (s.skipIf c).keysIn = s.keysIn := by
  cases c <;> rfl
@[simp] theorem State.skipIf_rndIn (s : State) (c : Bool) : (s.skipIf c).rndIn = s.rndIn := by
  cases c <;> rfl
@[simp] theorem State.skipIf_draws (s : State) (c : Bool) : (s.skipIf c).draws = s.draws := by
  cases c <;> rfl

/-! ### Reading registers back -/

/-- A skip leaves the registers (R108). -/
@[simp] theorem State.reg_skipIf (s : State) (c : Bool) (y : Reg) : (s.skipIf c).reg y = s.reg y := by
  cases c <;> rfl

/-- A register read after a register write (R11: the registers do not alias one another). -/
@[simp] theorem State.reg_setReg (s : State) (x y : Reg) (b : Byte) :
    (s.setReg x b).reg y = if x = y then b else s.reg y := by
  simp [State.reg, State.setReg, Vector.getElem_set, Fin.ext_iff]

/-- A register read after the flag is written (R12). -/
@[simp] theorem State.reg_setFlag (s : State) (y : Reg) (f : Bool) :
    (s.setFlag f).reg y = if flagReg = y then flagByte f else s.reg y := by
  simp [State.setFlag]

/-- A register read after a result and its flag are written: the flag wins in `V[15]` (R89). -/
@[simp] theorem State.reg_setResultAndFlag (s : State) (x y : Reg) (r : Byte) (f : Bool) :
    (s.setResultAndFlag x r f).reg y = if flagReg = y then flagByte f else if x = y then r else s.reg y := by
  simp [State.setResultAndFlag]

/-- A register after a block load (R155). -/
theorem getElem_registersUpTo (v : Vector Byte 16) (x y : Reg) (g : Nat → Byte) :
    (registersUpTo v x g)[y] = if y.val ≤ x.val then g y.val else v[y] := by
  rw [registersUpTo, Fin.getElem_fin, Vector.getElem_ofFn]

/-- A register read after a block load (R155). -/
@[simp] theorem State.reg_setRegsUpTo (s : State) (x y : Reg) (g : Nat → Byte) :
    (s.setRegsUpTo x g).reg y = if y.val ≤ x.val then g y.val else s.reg y := by
  unfold State.reg State.setRegsUpTo
  exact getElem_registersUpTo s.v x y g

/-- Two states with equal registers have equal register files. -/
theorem State.v_ext {s t : State} (h : ∀ y : Reg, s.reg y = t.reg y) : s.v = t.v := by
  refine Vector.ext fun j hj => ?_
  exact h ⟨j, hj⟩

end Sys2Proof.Machine
end

