-- ==== Sys2Proof/Laws/Ops.lean ====
section
/-! SUPPORT. One lemma per shared operation that says everything it can do, for proofs to cite instead of unfolding it. -/

namespace Sys2Proof.Machine

/-! ### Taking a fault -/

/-- A raise writes the fault record and nothing else (R203). -/
@[simp] theorem raise_eq (c : FaultCause) (info : Word) (s : State) :
    raise c info s = .next { s with fault := ⟨c, s.pc - 2, s.opcode, info⟩ } := rfl

/-- A fetch fault writes the fault record and nothing else (R81, R203). -/
@[simp] theorem raiseFetchBounds_eq (s : State) :
    raiseFetchBounds s = .next { s with fault := ⟨.fetchBounds, s.pc, 0, s.pc⟩ } := rfl

/-! ### Operands -/

/-- The range check of R46, in the words of its rule. -/
theorem State.dataInRange_iff (s : State) (len : Nat) :
    s.dataInRange len = true ↔ len = 0 ∨ s.i.toNat + len - 1 ≤ 0xFFF := by
  simp only [State.dataInRange, Bool.or_eq_true, beq_iff_eq, decide_eq_true_eq, Config.memBytes]
  omega

/-- What MEM_BOUNDS records (R201). -/
@[simp] theorem raiseMemBounds_eq (s : State) :
    raiseMemBounds s = .next { s with fault :=
      ⟨.memBounds, s.pc - 2, s.opcode, if 0xFFF < s.i.toNat then s.i else 0x1000⟩ } := rfl

/-- `zext_16(nnn)` keeps the number. -/
@[simp] theorem toNat_address (nnn : Addr12) : (address nnn).toNat = nnn.toNat := by
  simp only [address, BitVec.truncate_eq_setWidth, BitVec.toNat_setWidth]
  omega

/-- `zext_16(b)` keeps the number. -/
@[simp] theorem toNat_wordOfByte (b : Byte) : (wordOfByte b).toNat = b.toNat := by
  simp only [wordOfByte, BitVec.truncate_eq_setWidth, BitVec.toNat_setWidth]
  omega

/-- The glyph address as a number (R152). -/
@[simp] theorem toNat_glyphAddr (d : Byte) : (glyphAddr d).toNat = 0x050 + 5 * d.toNat := by
  simp only [glyphAddr, Config.fontBase, BitVec.toNat_ofNat]
  omega

/-- A key the keypad has is read from the snapshot. -/
theorem State.keyDown_lt (s : State) {k : Nat} (h : k < 16) : s.keyDown k = some s.key[k] := by
  simp [State.keyDown, h]

/-- A key index above 15 names no key. -/
theorem State.keyDown_ge (s : State) {k : Nat} (h : 15 < k) : s.keyDown k = none := by
  simp only [State.keyDown]
  exact Vector.getElem?_eq_none (by omega)

/-- The key scan finds the lowest pressed key (R185). -/
theorem State.lowestKey_some (s : State) {k : Reg} (h : s.key[k] = true) (low : ∀ j < k, s.key[j] = false) :
    s.lowestKey = some k := by
  rw [State.lowestKey, List.find?_eq_some_iff_getElem]
  refine ⟨h, k.val, by simp, by simp, fun j hj => ?_⟩
  have := low ⟨j, by omega⟩ (Fin.lt_def.mpr hj)
  simpa using this

/-- The key scan finds nothing when no key is pressed (R185). -/
theorem State.lowestKey_none (s : State) (h : ∀ k : Reg, s.key[k] = false) : s.lowestKey = none := by
  rw [State.lowestKey, List.find?_eq_none]
  intro k _
  simpa using h k

/-- The key scan answers a pressed key, or no key is pressed (R185). -/
theorem State.lowestKey_cases (s : State) :
    (∃ k, s.lowestKey = some k ∧ s.key[k] = true) ∨ (s.lowestKey = none ∧ ∀ k : Reg, s.key[k] = false) := by
  cases h : s.lowestKey with
  | some k => exact .inl ⟨k, rfl, by simpa using List.find?_some h⟩
  | none =>
    refine .inr ⟨rfl, fun k => ?_⟩
    rw [State.lowestKey, List.find?_eq_none] at h
    simpa using h k (List.mem_finRange k)

/-- The digits of R153 as numbers. -/
theorem bcdDigits_spec (b : Byte) :
    ((bcdDigits b).getD 0 0).toNat = b.toNat / 100 ∧ ((bcdDigits b).getD 1 0).toNat = b.toNat / 10 % 10 ∧
    ((bcdDigits b).getD 2 0).toNat = b.toNat % 10 := by
  have := b.isLt
  simp only [bcdDigits, List.getD_cons_zero, List.getD_cons_succ, BitVec.toNat_ofNat]
  refine ⟨?_, ?_, ?_⟩ <;> omega

/-- Three digits. -/
@[simp] theorem length_bcdDigits (b : Byte) : (bcdDigits b).length = 3 := rfl

/-- The registers a block store moves, by index (R154). -/
theorem State.getD_regsUpTo (s : State) (x k : Reg) (h : k.val ≤ x.val) :
    (s.regsUpTo x).getD k.val 0 = s.reg k := by
  have : k.val < x.val + 1 := by omega
  simp [State.regsUpTo, State.reg, List.getD_eq_getElem?_getD, this]

/-- A block store moves `x + 1` registers (R154). -/
@[simp] theorem State.length_regsUpTo (s : State) (x : Reg) : (s.regsUpTo x).length = x.val + 1 := by
  simp only [State.regsUpTo, List.length_take, Vector.length_toList]
  omega

/-! ### The cycle -/

/-- The state at the end of a cycle whose handler left `u`, begun in `before` (R80, R203). -/
theorem endCycle_next_iff {before t : State} {r : Result} :
    endCycle before r = .next t ↔ ∃ u, r = .next u ∧
      ((u.Running ∧ t = u.tickTimers) ∨ (u.Halted ∧ t = { before with fault := u.fault })) := by
  cases r with
  | next u =>
    by_cases h : u.fault.cause = .none
    · simp [endCycle, State.Running, State.Halted, h, eq_comm (b := t)]
    · simp [endCycle, State.Running, State.Halted, h, eq_comm (b := t)]
  | fault r => simp [endCycle]
  | refused r => simp [endCycle]

/-- The end of a cycle whose handler raised nothing (R84). -/
theorem endCycle_running {u : State} (h : u.Running) (before : State) :
    endCycle before (.next u) = .next u.tickTimers :=
  if_pos h

/-- The end of a cycle whose handler raised (R203). -/
theorem endCycle_halted {u : State} (h : u.Halted) (before : State) :
    endCycle before (.next u) = .next { before with fault := u.fault } :=
  if_neg h

/-- A cycle of a halted machine (R204). -/
theorem step_halted {s : State} (h : s.Halted) : step s = .next s := by
  simp [step, cycle, show ¬s.fault.cause = .none from h]

/-- A cycle of a running machine whose `pc` is above 0xFFE (R81). -/
theorem step_fetchBounds {s : State} (h : s.Running) (hp : 0xFFE < s.pc.toNat) :
    step s = raiseFetchBounds s.sampleKeys := by
  simp [step, cycle, runningCycle, State.fetchInRange, show s.fault.cause = .none from h, Nat.not_le.mpr hp]

/-- A cycle of a running machine whose `pc` is inside memory (R80). -/
theorem step_running {s : State} (h : s.Running) (hp : s.pc.toNat ≤ 0xFFE) :
    step s = endCycle s.sampleKeys (exec (decode s.fetchWord) s.sampleKeys.latch) := by
  have : s.sampleKeys.fetchWord = s.fetchWord := rfl
  simp [step, cycle, runningCycle, State.fetchInRange, show s.fault.cause = .none from h, hp, this]

/-- What a cycle can do: nothing (halted), a fetch fault, or one handler with the end of the cycle. -/
theorem step_next_cases {s t : State} (h : step s = .next t) :
    (s.Halted ∧ t = s) ∨
    (s.Running ∧ 0xFFE < s.pc.toNat ∧ t = { s.sampleKeys with fault := ⟨.fetchBounds, s.pc, 0, s.pc⟩ }) ∨
    (s.Running ∧ s.pc.toNat ≤ 0xFFE ∧ ∃ u, exec (decode s.fetchWord) s.sampleKeys.latch = .next u ∧
      ((u.Running ∧ t = u.tickTimers) ∨ (u.Halted ∧ t = { s.sampleKeys with fault := u.fault }))) := by
  by_cases hr : s.fault.cause = .none
  · by_cases hp : s.pc.toNat ≤ 0xFFE
    · rw [step_running hr hp, endCycle_next_iff] at h
      exact .inr (.inr ⟨hr, hp, h⟩)
    · rw [step_fetchBounds hr (by omega)] at h
      exact .inr (.inl ⟨hr, by omega, by simpa [eq_comm] using h⟩)
  · rw [step_halted hr] at h
    exact .inl ⟨hr, by simpa [eq_comm] using h⟩

/-- No cycle. -/
@[simp] theorem run_zero (s : State) : Host.Core.run core 0 s = .next s := rfl

/-- One more cycle, where the first one answers a state. -/
theorem run_succ_of_step {s t : State} (h : step s = .next t) (n : Nat) :
    Host.Core.run core (n + 1) s = Host.Core.run core n t := by
  have : core.step s = .next t := h
  simp only [Host.Core.run]
  rw [this]

/-- One timer decrement as a number (R84). -/
@[simp] theorem toNat_countDown (t : Byte) : (countDown t).toNat = t.toNat - 1 := by
  unfold countDown
  split
  · rename_i h
    simp [h]
  · rename_i h
    have : t.toNat ≠ 0 := fun h0 => h (BitVec.eq_of_toNat_eq h0)
    have := t.isLt
    rw [BitVec.toNat_sub]
    simp
    omega

/-- The word placed for a table row is the one the next cycle fetches (log 18). -/
theorem fetchWord_withFetchWord (s : State) (hm : s.mem.wf) (nbits w : Nat) :
    (s.withFetchWord nbits w).fetchWord = tableWord nbits w := by
  have hs : s.readyToFetch.mem.Pairwise fun c d => c.1 < d.1 := hm.1
  simp only [State.withFetchWord, placeWord, State.fetchWord, Memory.read_writeBytes hs]
  simp only [List.length_cons, List.length_nil]
  rw [if_pos (by omega), if_pos (by omega)]
  simp only [Nat.sub_self, Nat.add_sub_cancel_left, List.getD_cons_zero, List.getD_cons_succ]
  refine BitVec.eq_of_getLsbD_eq fun i hi => ?_
  refine (BitVec.getLsbD_append (x := highByte (tableWord nbits w))).trans ?_
  by_cases h : i < 8
  · simp [h, lowByte]
  · simp [h, highByte, show i - 8 < 8 by omega, show 8 + (i - 8) = i by omega]

end Sys2Proof.Machine
end

