-- ==== Sys2Proof/Laws/Exec.lean ====
section
/-! SUPPORT. The inversion lemma of the dispatch: if `exec` answers a next state, then a fault was raised or the
instruction had its effect. -/

namespace Sys2Proof.Machine

/-- What the handler of `i` does to the state it finds when it raises nothing. -/
def Effect (i : Instr) (s t : State) : Prop :=
  match i with
  | .cls => t = { s with screen := Screen.dark }
  | .ret => ∃ k : Fin 16, s.sp.toNat = k.val + 1 ∧ t = { s with sp := s.sp - 1, pc := s.stack[k] }
  | .jp nnn => t = { s with pc := address nnn }
  | .jpV0 nnn => t = { s with pc := wordOfByte (s.reg 0) + address nnn }
  | .call nnn => ∃ k : Fin 16, s.sp.toNat = k.val ∧
      t = { s with stack := s.stack.set k s.pc, sp := s.sp + 1, pc := address nnn }
  | .seImm x kk => t = s.skipIf (s.reg x == kk)
  | .sneImm x kk => t = s.skipIf (s.reg x != kk)
  | .seReg x y => t = s.skipIf (s.reg x == s.reg y)
  | .sneReg x y => t = s.skipIf (s.reg x != s.reg y)
  | .ldImm x kk => t = s.setReg x kk
  | .addImm x kk => t = s.setReg x (s.reg x + kk)
  | .ldReg x y => t = s.setReg x (s.reg y)
  | .orReg x y => t = s.setReg x (s.reg x ||| s.reg y)
  | .andReg x y => t = s.setReg x (s.reg x &&& s.reg y)
  | .xorReg x y => t = s.setReg x (s.reg x ^^^ s.reg y)
  | .addReg x y => t = s.setResultAndFlag x (s.reg x + s.reg y) (carry (s.reg x) (s.reg y))
  | .subReg x y => t = s.setResultAndFlag x (s.reg x - s.reg y) (greater (s.reg x) (s.reg y))
  | .shr x _ => t = s.setResultAndFlag x (s.reg x >>> 1) (lowBit (s.reg x))
  | .subnReg x y => t = s.setResultAndFlag x (s.reg y - s.reg x) (greater (s.reg y) (s.reg x))
  | .shl x _ => t = s.setResultAndFlag x (s.reg x <<< 1) (highBit (s.reg x))
  | .ldI nnn => t = { s with i := address nnn }
  | .addI x => t = { s with i := s.i + wordOfByte (s.reg x) }
  | .rnd x kk => t = s.consumeDraw.setReg x (s.drawnByte &&& kk)
  | .drw x y n => t = State.setFlag { s with screen := (s.sprite x y n).1 } (s.sprite x y n).2
  | .skp x => ∃ k : Fin 16, (s.reg x).toNat = k.val ∧ t = s.skipIf s.key[k]
  | .sknp x => ∃ k : Fin 16, (s.reg x).toNat = k.val ∧ t = s.skipIf (!s.key[k])
  | .ldVxDT x => t = s.setReg x s.dt
  | .ldDTVx x => t = { s with dt := s.reg x }
  | .ldSTVx x => t = { s with st := s.reg x }
  | .ldVxK x =>
      (∃ k : Reg, s.lowestKey = some k ∧ t = s.setReg x (BitVec.ofNat 8 k.val)) ∨
      (s.lowestKey = none ∧ t = { s with pc := s.pc - 2 })
  | .ldF x => t = { s with i := glyphAddr (s.reg x) }
  | .ldB x =>
    s.i.toNat + 2 ≤ 0xFFF ∧ t = { s with mem := Memory.writeBytes s.mem s.i.toNat (bcdDigits (s.reg x)) }
  | .stRegs x =>
    s.i.toNat + x.val ≤ 0xFFF ∧ t = { s with mem := Memory.writeBytes s.mem s.i.toNat (s.regsUpTo x) }
  | .ldRegs x =>
    s.i.toNat + x.val ≤ 0xFFF ∧ t = s.setRegsUpTo x fun k => Memory.read s.mem (s.dataAddr k)
  | .nop _ => t = s

/-- A state that differs from `s` by a fault raised in a handler only (R203). -/
def Raised (s t : State) : Prop := ∃ c n, c ≠ .none ∧ c ≠ .fetchBounds ∧ t = { s with fault := ⟨c, s.pc - 2, s.opcode, n⟩ }

/-- A handler that raises gives a raised state. -/
theorem raised_of_raise {s t : State} {c : FaultCause} {n : Word} (h : raise c n s = .next t) (h0 : c ≠ .none)
    (h1 : c ≠ .fetchBounds) : Raised s t :=
  ⟨c, n, h0, h1, (Host.Outcome.next.inj h).symm⟩

/-- The checked access: the range is inside memory and the handler goes on, or MEM_BOUNDS is raised (R46). -/
theorem range_cases {s t u : State} {len : Nat}
    (h : (if s.dataInRange len = true then (.next u : Result) else raiseMemBounds s) = .next t) :
    ((len = 0 ∨ s.i.toNat + len - 1 ≤ 0xFFF) ∧ t = u) ∨ Raised s t := by
  split at h
  · rename_i hr
    exact .inl ⟨(s.dataInRange_iff len).mp hr, (Host.Outcome.next.inj h).symm⟩
  · exact .inr (raised_of_raise h (by decide) (by decide))

/-- Inversion of the dispatch. -/
theorem exec_next_cases {i : Instr} {s t : State} (h : exec i s = .next t) : Raised s t ∨ Effect i s t := by
  cases i
  case ret =>
    simp only [exec, execRet, State.stackEntry] at h
    split at h
    · exact .inl (raised_of_raise h (by decide) (by decide))
    · rename_i h0
      have hz : s.sp.toNat ≠ 0 := fun h => h0 (BitVec.eq_of_toNat_eq h)
      split at h
      · rename_i tgt ht
        have hlt : s.sp.toNat - 1 < 16 := by
          by_contra hc
          rw [Vector.getElem?_eq_none (by omega)] at ht
          cases ht
        refine .inr ⟨⟨s.sp.toNat - 1, hlt⟩, by simp only []; omega, ?_⟩
        rw [Vector.getElem?_eq_getElem hlt] at ht
        cases ht
        exact (Host.Outcome.next.inj h).symm
      · cases h
  case call nnn =>
    simp only [exec, execCall, State.push] at h
    split at h
    · exact .inl (raised_of_raise h (by decide) (by decide))
    · split at h
      · rename_i hlt
        refine .inr ⟨⟨s.sp.toNat, hlt⟩, rfl, ?_⟩
        rw [← Host.Outcome.next.inj h]
        congr 1
        simp [Vector.set, Vector.setIfInBounds, Array.setIfInBounds, hlt]
      · cases h
  case skp x =>
    simp only [exec, execSkp] at h
    by_cases hk : (s.reg x).toNat < 16
    · rw [s.keyDown_lt hk] at h
      exact .inr ⟨⟨(s.reg x).toNat, hk⟩, rfl, (Host.Outcome.next.inj h).symm⟩
    · rw [s.keyDown_ge (by omega)] at h
      exact .inl (raised_of_raise h (by decide) (by decide))
  case sknp x =>
    simp only [exec, execSknp] at h
    by_cases hk : (s.reg x).toNat < 16
    · rw [s.keyDown_lt hk] at h
      exact .inr ⟨⟨(s.reg x).toNat, hk⟩, rfl, (Host.Outcome.next.inj h).symm⟩
    · rw [s.keyDown_ge (by omega)] at h
      exact .inl (raised_of_raise h (by decide) (by decide))
  case ldF x =>
    simp only [exec, execLdF] at h
    split at h
    · exact .inl (raised_of_raise h (by decide) (by decide))
    · exact .inr (Host.Outcome.next.inj h).symm
  case ldVxK x =>
    simp only [exec, execLdVxK] at h
    split at h
    · rename_i k hk
      exact .inr (.inl ⟨k, hk, (Host.Outcome.next.inj h).symm⟩)
    · rename_i hk
      exact .inr (.inr ⟨hk, (Host.Outcome.next.inj h).symm⟩)
  case drw x y n => exact (range_cases h).elim (fun h => .inr h.2) .inl
  case ldB x => exact (range_cases h).elim (fun h => .inr ⟨by have := h.1; omega, h.2⟩) .inl
  case stRegs x => exact (range_cases h).elim (fun h => .inr ⟨by have := h.1; omega, h.2⟩) .inl
  case ldRegs x => exact (range_cases h).elim (fun h => .inr ⟨by have := h.1; omega, h.2⟩) .inl
  all_goals exact .inr (Host.Outcome.next.inj h).symm

/-- An effect leaves the fault record alone (R26: only a raise and reset write it). -/
theorem effect_fault {i : Instr} {s t : State} (h : Effect i s t) : t.fault = s.fault := by
  cases i
  case ret | call => obtain ⟨k, -, rfl⟩ := h; rfl
  case skp | sknp => obtain ⟨k, -, rfl⟩ := h; simp
  case ldVxK => rcases h with ⟨k, -, rfl⟩ | ⟨-, rfl⟩ <;> simp
  case ldB | stRegs => obtain ⟨-, rfl⟩ := h; rfl
  case ldRegs => obtain ⟨-, rfl⟩ := h; simp
  all_goals
    rcases h with rfl
    simp

end Sys2Proof.Machine
end

