-- ==== Sys2Proof/Tests/Slice0.lean ====
section
/-! SUPPORT. Tests. Expected values are those of spec/95_test_vectors.md (the vector's name stands in the docstring) or are
worked out by hand from the rule named there. One step on a small state each. Then a witness for the hypotheses of every
statement of Obligations.lean that has some. -/

namespace Sys2Proof.Tests

open Sys2Proof Sys2Proof.Machine

/-- `f` of the state after one step on the word `w`, placed where `s` fetches. -/
def after {α : Type} (w : Nat) (s : State) (f : State → α) : Option α :=
  match step (s.withFetchWord 16 w) with
  | .next t => some (f t)
  | _ => none

/-- Whether a step from `s` answers a state with the property `p`. -/
def steps (s : State) (p : State → Bool) : Bool :=
  match step s with
  | .next t => p t
  | _ => false

/-- Whether `i` in `s` answers a state with the property `p`. -/
def execs (i : Instr) (s : State) (p : State → Bool) : Bool :=
  match exec i s with
  | .next t => p t
  | _ => false

/-- The reset state with `V[1] = a` and `V[2] = b`. -/
def with12 (a b : Byte) : State := (State.reset.setReg 1 a).setReg 2 b

/-- `s` with the bytes `bs` from address `a` on. -/
def bytes (s : State) (a : Nat) (bs : List Byte) : State := { s with mem := Memory.writeBytes s.mem a bs }

/-- The keypad with keys 3 and 7 pressed, as in vectors K1 to K7. -/
def keys37 : Keypad := ((Vector.replicate 16 false).set 3 true).set 7 true

/-- `V[1]` and `V[15]`. -/
def v1f (s : State) : Byte × Byte := (s.reg 1, s.reg 15)

/-- The fault record as the vectors write it: cause code, pc, opcode, info. -/
def record (s : State) : BitVec 3 × Word × Word × Word :=
  (s.fault.cause.code, s.fault.pc, s.fault.opcode, s.fault.info)

/-- The pixels of the list, in columns and rows. -/
def pixels (l : List (Fin 64 × Fin 32)) (s : State) : List Bool := l.map fun p => s.screen.at p.1 p.2

/-! ### Well-formedness: the check refuses the no-op of an assigned word (R67) -/

/-- R67: 00E0 and 00EE are assigned; 00E1 is not. -/
theorem test_wf_refuses_nop_of_family0 :
    Instr.wf (.nop 0x00E0) = false ∧ Instr.wf (.nop 0x00EE) = false ∧ Instr.wf (.nop 0x00E1) = true := by decide

/-- R67: 8AB4 is assigned; 8008 and 8ABF are not. -/
theorem test_wf_refuses_nop_of_family8 :
    Instr.wf (.nop 0x8AB4) = false ∧ Instr.wf (.nop 0x8ABE) = false ∧ Instr.wf (.nop 0x8008) = true ∧
    Instr.wf (.nop 0x8ABF) = true := by decide

/-- R67: E09E and E001 are assigned; E000 is not. -/
theorem test_wf_refuses_nop_of_familyE :
    Instr.wf (.nop 0xE09E) = false ∧ Instr.wf (.nop 0xE001) = false ∧ Instr.wf (.nop 0xE000) = true := by decide

/-- R67: F107 is assigned; F10B is not. -/
theorem test_wf_refuses_nop_of_familyF : Instr.wf (.nop 0xF107) = false ∧ Instr.wf (.nop 0xF10B) = true := by decide

/-- R67: no word with top nibble 1 is unassigned. -/
theorem test_wf_refuses_nop_of_primary : Instr.wf (.nop 0x1228) = false ∧ Instr.wf (.nop 0x5AB7) = false := by decide

/-! ### Decoding: words written out bit by bit from the patterns of R69, top nibble first -/

/-- `00EE`, `1nnn`, `Bnnn`, `2nnn`; the word 2ABC is of vector F6, B300 of F20. -/
theorem test_decode_flow : decode 0b0000000011101110 = .ret ∧
    decode 0b0001001000000001 = .jp 0x201 ∧
    decode 0b1011001100000000 = .jpV0 0x300 ∧
    decode 0b0010101010111100 = .call 0xABC := by decide

/-- `3xkk`, `4xkk`, `5xy0`, `9xy0`. -/
theorem test_decode_skips : decode 0b0011101000000101 = .seImm 10 0x05 ∧
    decode 0b0100000100000101 = .sneImm 1 0x05 ∧
    decode 0b0101101010110000 = .seReg 10 11 ∧
    decode 0b1001000100100000 = .sneReg 1 2 := by decide

/-- `6xkk`, `7xkk`, `Cxkk`. -/
theorem test_decode_immediates : decode 0b0110101000000101 = .ldImm 10 0x05 ∧
    decode 0b0111000111111111 = .addImm 1 0xFF ∧
    decode 0b1100000100001111 = .rnd 1 0x0F := by decide

/-- `8xy0` to `8xy7` and `8xyE`. -/
theorem test_decode_family8 : decode 0b1000101010110000 = .ldReg 10 11 ∧
    decode 0b1000000100100001 = .orReg 1 2 ∧
    decode 0b1000000100100010 = .andReg 1 2 ∧
    decode 0b1000000100100011 = .xorReg 1 2 ∧
    decode 0b1000101010110100 = .addReg 10 11 ∧
    decode 0b1000000100100101 = .subReg 1 2 ∧
    decode 0b1000000100100110 = .shr 1 2 ∧
    decode 0b1000000100100111 = .subnReg 1 2 ∧
    decode 0b1000000100101110 = .shl 1 2 := by decide

/-- `Annn`, `Fx1E`, `Fx29`, `Fx33`, `Fx55`, `Fx65`. -/
theorem test_decode_index : decode 0b1010000001010000 = .ldI 0x050 ∧
    decode 0b1111000100011110 = .addI 1 ∧
    decode 0b1111000100101001 = .ldF 1 ∧
    decode 0b1111000100110011 = .ldB 1 ∧
    decode 0b1111001001010101 = .stRegs 2 ∧
    decode 0b1111001001100101 = .ldRegs 2 := by decide

/-- `00E0`, `Dxyn`. -/
theorem test_decode_display : decode 0b0000000011100000 = .cls ∧
    decode 0b1101000100100011 = .drw 1 2 3 := by decide

/-- `Ex9E`, `ExA1`, `Fx07`, `Fx15`, `Fx18`, `Fx0A`. -/
theorem test_decode_keypad_timers : decode 0b1110000110011110 = .skp 1 ∧
    decode 0b1110001010100001 = .sknp 2 ∧
    decode 0b1111000100000111 = .ldVxDT 1 ∧
    decode 0b1111001000010101 = .ldDTVx 2 ∧
    decode 0b1111001100011000 = .ldSTVx 3 ∧
    decode 0b1111010100001010 = .ldVxK 5 := by decide

/-- The unassigned words 00E1, 8008, E09F, F166 of vector D-1. -/
theorem test_decode_nop : decode 0b0000000011100001 = .nop 0x00E1 ∧
    decode 0b1000000000001000 = .nop 0x8008 ∧
    decode 0b1110000010011111 = .nop 0xE09F ∧
    decode 0b1111000101100110 = .nop 0xF166 := by decide

/-- The alias words 0FF0, 012E, 5AB7, 9AB3, E0AE, E091 of vector D-1 (D28). -/
theorem test_decode_alias : decode 0b0000111111110000 = .cls ∧
    decode 0b0000000100101110 = .ret ∧
    decode 0b0101101010110111 = .seReg 10 11 ∧
    decode 0b1001101010110011 = .sneReg 10 11 ∧
    decode 0b1110000010101110 = .skp 0 ∧
    decode 0b1110000010010001 = .sknp 0 := by decide

/-- The table numbering: with 16-bit words bit 0 is the least significant bit of the one word (R60). -/
theorem test_decode_table_word :
    decodeTableWord 16 0x6A05 = some (.ldImm 10 0x05) ∧ decodeTableWord 16 0x0000 = some .cls := by decide

/-- Bytes 6A 05 in address order are the word 6A05, and one byte is no instruction (R42, R60). -/
theorem test_decode_bytes : decodeBytes [0x6A, 0x05, 0x77] = .ok (.ldImm 10 0x05, [0x77]) ∧
    decodeBytes [0x6A] = .error .truncated := ⟨rfl, rfl⟩

/-! ### One step of each instruction -/

/-- G12: all pixels off, VF kept. -/
theorem test_cls :
    after 0x00E0 { State.reset with screen := Vector.replicate 32 (Vector.replicate 64 true), v := State.reset.v.set 15 1 }
      (fun t => (t.screen, t.reg 15))
      = some (Screen.dark, 1) := by decide

/-- F1: the popped entry, sp down by 1. -/
theorem test_ret :
    after 0x00EE { State.reset with sp := 2, stack := (State.reset.stack.set 0 0x0111).set 1 0x0ABC }
      (fun t => (t.sp, t.pc, t.stack[1]))
      = some (1, 0x0ABC, 0x0ABC) := by decide

/-- F2. -/
theorem test_ret_underflow : after 0x00EE State.reset record = some (3, 0x0200, 0x00EE, 0) := by decide

/-- F4, and C-1: pc is nnn, opcode the word. -/
theorem test_jp : after 0x1234 State.reset (fun t => (t.pc, t.opcode)) = some (0x0234, 0x1234) ∧
    after 0x1201 State.reset State.pc = some 0x0201 := by decide

/-- F20 and F21: the sum is not masked. -/
theorem test_jpV0 : after 0xB300 (State.reset.setReg 0 0x04) State.pc = some 0x0304 ∧
    after 0xBFFF (State.reset.setReg 0 0xFF) State.pc = some 0x10FE := by decide

/-- F7: the last slot. -/
theorem test_call :
    after 0x2ABC { State.reset with sp := 15 } (fun t => (t.stack[15], t.sp, t.pc)) = some (0x0202, 16, 0x0ABC) := by decide

/-- F8. -/
theorem test_call_overflow :
    after 0x2ABC { State.reset with sp := 16 } (fun t => (record t, t.pc, t.opcode))
      = some ((2, 0x0200, 0x2ABC, 0x0010), 0x0200, 0) := by decide

/-- F9 and F10. -/
theorem test_seImm : after 0x3105 (with12 5 0) State.pc = some 0x0204 ∧
    after 0x3105 (with12 6 0) State.pc = some 0x0202 := by decide

/-- F11 and F12. -/
theorem test_sneImm : after 0x4105 (with12 5 0) State.pc = some 0x0202 ∧
    after 0x4105 (with12 6 0) State.pc = some 0x0204 := by decide

/-- F13 and F14. -/
theorem test_seReg : after 0x5120 (with12 5 5) State.pc = some 0x0204 ∧
    after 0x5120 (with12 5 6) State.pc = some 0x0202 := by decide

/-- F15 and F16. -/
theorem test_sneReg : after 0x9120 (with12 5 5) State.pc = some 0x0202 ∧
    after 0x9120 (with12 5 6) State.pc = some 0x0204 := by decide

/-- A1: register 15 is writable. -/
theorem test_ldImm : after 0x61AB State.reset v1f = some (0xAB, 0) ∧
    after 0x6F2A State.reset v1f = some (0, 0x2A) := by decide

/-- A1: no flag. -/
theorem test_addImm : after 0x7101 ((with12 0xFF 0).setReg 15 5) v1f = some (0x00, 0x05) := by decide

/-- A2. -/
theorem test_ldReg : after 0x8120 ((with12 0x11 0x22).setReg 15 7) v1f = some (0x22, 7) := by decide

/-- A2. -/
theorem test_orReg : after 0x8121 ((with12 0xF0 0x0F).setReg 15 7) v1f = some (0xFF, 7) := by decide

/-- A2. -/
theorem test_andReg : after 0x8122 ((with12 0xF0 0x3C).setReg 15 7) v1f = some (0x30, 7) := by decide

/-- A2. -/
theorem test_xorReg : after 0x8123 ((with12 0xF0 0x3C).setReg 15 7) v1f = some (0xCC, 7) := by decide

/-- A4: 255 + 1; A10: the flag wins in register 15. -/
theorem test_addReg : after 0x8124 (with12 0xFF 0x01) v1f = some (0x00, 1) ∧
    after 0x8F14 ((with12 1 0).setReg 15 0x10) v1f = some (0x01, 0) := by decide

/-- A5: 3 - 5, and equal operands. -/
theorem test_subReg : after 0x8125 (with12 3 5) v1f = some (0xFE, 0) ∧
    after 0x8125 ((with12 5 5).setReg 15 1) v1f = some (0x00, 0) := by decide

/-- A7: V[2] is ignored. -/
theorem test_shr : after 0x8126 (with12 0x01 0xAA) v1f = some (0x00, 1) ∧
    after 0x8126 (with12 0x80 0xAA) v1f = some (0x40, 0) := by decide

/-- A6. -/
theorem test_subnReg : after 0x8127 (with12 0x03 0x05) v1f = some (0x02, 1) ∧
    after 0x8127 (with12 0x05 0x03) v1f = some (0xFE, 0) := by decide

/-- A8: V[2] is ignored. -/
theorem test_shl : after 0x812E (with12 0x80 0xAA) v1f = some (0x00, 1) ∧
    after 0x812E (with12 0x40 0xAA) v1f = some (0x80, 0) := by decide

/-- I1. -/
theorem test_ldI : after 0xAFFF State.reset State.i = some 0x0FFF := by decide

/-- I2: the sum wraps at 16 bits; VF kept. -/
theorem test_addI : after 0xF11E { with12 2 0 with i := 0xFFFF } (fun t => (t.i, t.reg 15)) = some (0x0001, 0) ∧
    after 0xF11E { with12 1 0 with i := 0x0FFF } (fun t => (t.i, t.reg 15)) = some (0x1000, 0) := by decide

/-- A12: the draw A7 of the input queue, which is consumed. -/
theorem test_rnd :
    after 0xC10F { State.reset with rndIn := [0xA7, 0x11] } (fun t => (t.reg 1, t.rndIn)) = some (0x07, [0x11]) := by decide

/-- G1: columns 60 to 63 and 0 to 3 of row 5; 59 and 4 stay off. -/
theorem test_drw_wraps_in_x :
    after 0xD121 (bytes { with12 0x3C 0x05 with i := 0x300 } 0x300 [0xFF]) (pixels [(59, 5), (60, 5), (63, 5), (0, 5), (3, 5), (4, 5)])
      = some [false, true, true, true, true, false] := by decide

/-- G4: (0,0) on, (1,0) erased, (5,5) kept; VF is 1. -/
theorem test_drw_collision :
    after 0xD121 (bytes { with12 0 0 with i := 0x300, screen := (Screen.dark.invert 1 0).invert 5 5 } 0x300 [0xC0])
      (fun t => (pixels [(0, 0), (1, 0), (5, 5)] t, t.reg 15))
      = some ([true, false, true], 1) := by decide

/-- K1, K2: keys 3 and 7 pressed. -/
theorem test_skp : after 0xE19E { with12 3 0 with keysIn := [keys37] } State.pc = some 0x0204 ∧
    after 0xE19E { with12 4 0 with keysIn := [keys37] } State.pc = some 0x0202 := by decide

/-- K3, K4. -/
theorem test_sknp : after 0xE1A1 { with12 3 0 with keysIn := [keys37] } State.pc = some 0x0202 ∧
    after 0xE1A1 { with12 4 0 with keysIn := [keys37] } State.pc = some 0x0204 := by decide

/-- K5, K6. -/
theorem test_key_index : after 0xE19E (with12 0x10 0) record = some (6, 0x0200, 0xE19E, 0x0010) ∧
    after 0xE1A1 (with12 0xFF 0) record = some (6, 0x0200, 0xE1A1, 0x00FF) := by decide

/-- K10: read before the decrement. -/
theorem test_ldVxDT : after 0xF107 { State.reset with dt := 5 } (fun t => (t.reg 1, t.dt)) = some (5, 4) := by decide

/-- K12, K14. -/
theorem test_ldDTVx : after 0xF115 { with12 0 0 with dt := 7 } State.dt = some 0 ∧
    after 0xF115 (with12 0xFF 0) State.dt = some 0xFE := by decide

/-- K15. -/
theorem test_ldSTVx : after 0xF118 { with12 3 0 with dt := 1 } (fun t => (t.st, t.dt)) = some (2, 0) := by decide

/-- K7: the lowest pressed key. -/
theorem test_ldVxK :
    after 0xF50A { State.reset.setReg 5 9 with keysIn := [keys37] } (fun t => (t.reg 5, t.pc))
      = some (3, 0x0202) := by decide

/-- K8: no net advance, the timer counts. -/
theorem test_ldVxK_waits :
    after 0xF50A { State.reset.setReg 5 9 with dt := 2 } (fun t => (t.reg 5, t.pc, t.dt)) = some (9, 0x0200, 1) := by decide

/-- I4: glyph F; 10 hexadecimal faults. -/
theorem test_ldF : after 0xF129 (with12 0x0F 0) State.i = some 0x009B ∧
    after 0xF129 (with12 0x10 0) record = some (5, 0x0200, 0xF129, 0x0010) := by decide

/-- I8: 156. -/
theorem test_ldB :
    after 0xF133 { with12 156 0 with i := 0x300 } (fun t => Memory.readBytes t.mem 0x300 3) = some [1, 5, 6] := by decide

/-- I9. -/
theorem test_ldB_bounds :
    after 0xF133 { with12 0xFF 0 with i := 0xFFE } (fun t => (record t, Memory.readBytes t.mem 0xFFE 2))
      = some ((4, 0x0200, 0xF133, 0x1000), [0, 0]) ∧
    after 0xF133 { with12 0xFF 0 with i := 0x1234 } record = some (4, 0x0200, 0xF133, 0x1234) := by decide

/-- I10: V[0] to V[2], not V[3]; I unchanged. -/
theorem test_stRegs :
    after 0xF255 { ((with12 0x22 0x33).setReg 0 0x11).setReg 3 0x44 with i := 0x300 }
      (fun t => (Memory.readBytes t.mem 0x300 4, t.i))
      = some ([0x11, 0x22, 0x33, 0x00], 0x300) := by decide

/-- I10: the last range that fits, and the first that does not. -/
theorem test_stRegs_bounds :
    after 0xFF55 { (State.reset.setReg 0 1).setReg 15 0xEE with i := 0xFF0 }
      (fun t => (Memory.read t.mem 0xFF0, Memory.read t.mem 0xFFF))
      = some (0x01, 0xEE) ∧
    after 0xFF55 { State.reset with i := 0xFF1 } record = some (4, 0x0200, 0xFF55, 0x1000) := by decide

/-- I11: V[0] to V[2], not V[3]. -/
theorem test_ldRegs :
    after 0xF265 (bytes { State.reset with i := 0x300 } 0x300 [0x11, 0x22, 0x33, 0x44])
      (fun t => [t.reg 0, t.reg 1, t.reg 2, t.reg 3])
      = some [0x11, 0x22, 0x33, 0x00] := by decide

/-- I5: the font from reset. -/
theorem test_ldRegs_font :
    after 0xF265 { State.reset with i := 0x050 } (fun t => [t.reg 0, t.reg 1, t.reg 2])
      = some [0xF0, 0x90, 0x90] := by decide

/-- D-2. -/
theorem test_nop :
    after 0x8008 { State.reset with dt := 2 } (fun t => (t.pc, t.opcode, t.dt)) = some (0x0202, 0x8008, 1) := by decide

/-- G6: n = 0 reads nothing and clears VF. -/
theorem test_drw_no_rows :
    after 0xD120 { State.reset.setReg 15 9 with i := 0x1000 } (fun t => (t.reg 15, t.fault))
      = some (0, FaultRecord.empty) := by decide

/-- C-3: pc FFF faults and stays. -/
theorem test_fetch_bounds :
    steps { State.reset with pc := 0xFFF } (fun t => record t == (1, 0x0FFF, 0, 0x0FFF) && t.pc == 0xFFF) := by decide

/-- C-6: 5 and 1, then 3 and 0 after a second cycle. -/
theorem test_timers_floor : after 0x6000 { State.reset with dt := 5, st := 1 } (fun t => (t.dt, t.st)) = some (4, 0) ∧
    after 0x6000 { State.reset with dt := 4, st := 0 } (fun t => (t.dt, t.st)) = some (3, 0) := by decide

/-- M1: the four bytes and their neighbours. -/
theorem test_rom_load : (boot [0xDE, 0xAD, 0xBE, 0xEF]).map (fun s => Memory.readBytes s.mem 0x1FF 6) =
    some [0x00, 0xDE, 0xAD, 0xBE, 0xEF, 0x00] := by decide

/-- M3: the first and the last byte of the font. -/
theorem test_reset_font_ends : Memory.read State.reset.mem 0x050 = 0xF0 ∧ Memory.read State.reset.mem 0x09F = 0x80 ∧
    Memory.read State.reset.mem 0x04F = 0 ∧ Memory.read State.reset.mem 0x0A0 = 0 := by decide

/-- G1 as the port shows it: word 380 on, word 384 off. -/
theorem test_display_port :
    (match step ((bytes { with12 0x3C 0x05 with i := 0x300 } 0x300 [0xFF]).withFetchWord 16 0xD121) with
    | .next t => (displayWord t 380, displayWord t 384)
    | _ => (0, 0)) = (0xFFFFFFFF, 0x00000000) := by decide

/-! ### Witnesses: states and operands that meet the hypotheses of each statement, at the bounds of each clause -/

/-- The word `w` placed at `pc` in `s`. -/
def placed (w : Nat) (s : State) : State := s.withFetchWord 16 w

/-- The hypotheses of a statement about a cycle of a running machine whose `pc` is inside memory. -/
abbrev Fetches (s : State) : Prop := s.Running ∧ s.pc.toNat ≤ 0xFFE

/-- The state a halted machine is in after `00EE` at reset (vector F2). -/
def haltedState : State := { State.reset with fault := ⟨.stackUnderflow, 0x0200, 0x00EE, 0⟩ }

/-- A parked machine: `1200` at 0x200 (vector F5), with both timers running. -/
def parkedState : State := placed 0x1200 { State.reset with dt := 3, st := 1 }

/-- A machine waiting at `F50A` with one empty keypad array presented. -/
def waitingState : State := placed 0xF50A { State.reset with keysIn := [Vector.replicate 16 false], dt := 2 }

/-- StepRunsTheDecodedInstruction: a handler that raises nothing (at the last `pc` too), one that raises, and the model's stop. -/
theorem witness_step_runs :
    (Fetches (placed 0x6A05 State.reset) ∧ decode (Claims.wordAtPc (placed 0x6A05 State.reset)) = .ldImm 10 0x05 ∧
      steps (placed 0x6A05 State.reset) (fun t => t.fault.cause == .none)) ∧
    (Fetches (placed 0x6107 { State.reset with pc := 0xFFE }) ∧
      steps (placed 0x6107 { State.reset with pc := 0xFFE }) (fun t => t.pc == 0x1000)) ∧
    (Fetches (placed 0x00EE State.reset) ∧ steps (placed 0x00EE State.reset) (fun t => t.fault.cause != .none)) ∧
    (Fetches (placed 0x00EE { State.reset with sp := 17 }) ∧
      exec .ret { State.reset with sp := 17 } = .fault .stackPointerOutOfRange) := by
  refine ⟨by decide, by decide, by decide, by decide, rfl⟩

/-- FetchIsBigEndian: the bytes of the example, and a step that keeps running. -/
theorem witness_fetch : Memory.read (placed 0x6A05 State.reset).mem 0x200 = 0x6A ∧
    Memory.read (placed 0x6A05 State.reset).mem 0x201 = 0x05 ∧ Fetches (placed 0x6A05 State.reset) ∧
    steps (placed 0x6A05 State.reset) (fun t => t.fault.cause == .none && t.opcode == 0x6A05) := by decide

/-- PcAdvancesBeforeTheHandler: a jump, a call, a skip taken and not taken, a wait with and without a key, a plain instruction. -/
theorem witness_pc_advances :
    steps (placed 0x1228 State.reset) (fun t => t.fault.cause == .none && t.pc == 0x228) ∧
    steps (placed 0x2ABC State.reset) (fun t => t.fault.cause == .none && t.stack[0] == 0x202) ∧
    steps (placed 0x3000 State.reset) (fun t => t.fault.cause == .none && t.pc == 0x204) ∧
    steps (placed 0x4000 State.reset) (fun t => t.fault.cause == .none && t.pc == 0x202) ∧
    steps waitingState (fun t => t.fault.cause == .none && t.pc == 0x200) ∧
    steps { waitingState with keysIn := [keys37] } (fun t => t.fault.cause == .none && t.pc == 0x202) ∧
    steps (placed 0x8008 State.reset) (fun t => t.fault.cause == .none && t.pc == 0x202) := by decide

/-- HaltedMachineNeverChanges: a halted state. -/
theorem witness_halted : haltedState.Halted := by decide

/-- FetchAboveMemoryRaisesFetchBounds: the lowest and the highest such `pc`. -/
theorem witness_fetch_bounds :
    (({ State.reset with pc := 0xFFF } : State).Running ∧ 0xFFE < ({ State.reset with pc := 0xFFF } : State).pc.toNat) ∧
    0xFFE < ({ State.reset with pc := 0xFFFF } : State).pc.toNat := by decide

/-- FaultingCycleKeepsOnlyTheRecord: a handler fault and a fetch fault. -/
theorem witness_faulting_cycle : State.reset.Running ∧
    steps (placed 0x00EE State.reset) (fun t => t.fault.cause != .none) ∧
    steps { State.reset with pc := 0xFFF } (fun t => t.fault.cause != .none) := by decide

/-- FaultsAreRaisedExactlyByTheTable: an instruction that raises, and one that does not. -/
theorem witness_faults_table :
    execs .ret State.reset (fun t => t.fault.cause == .stackUnderflow) ∧
    execs (.ldF 1) (with12 0x0F 0) (fun t => t.fault.cause == .none) ∧
    execs (.ldF 1) (with12 0x10 0) (fun t => t.fault.cause == .fontIndex) ∧
    execs (.drw 1 2 1) { State.reset with i := 0xFFF } (fun t => t.fault.cause == .none) ∧
    execs (.drw 1 2 2) { State.reset with i := 0xFFF } (fun t => t.fault.cause == .memBounds) := by decide

/-- TimersCountDownAfterTheHandler: a faulting cycle, a plain one, and the two writes. -/
theorem witness_timers : State.reset.Running ∧
    steps (placed 0x00EE { State.reset with dt := 5 }) (fun t => t.fault.cause != .none && t.dt == 5) ∧
    steps (placed 0x6000 { State.reset with dt := 5 }) (fun t => t.fault.cause == .none && t.dt == 4) ∧
    steps (placed 0xF115 (with12 1 0)) (fun t => t.fault.cause == .none && t.dt == 0) ∧
    steps (placed 0xF118 (with12 0xFF 0)) (fun t => t.fault.cause == .none && t.st == 0xFE) := by decide

/-- KeypadIsSampledOncePerCycle: a presented array, and none. -/
theorem witness_keypad :
    steps { State.reset with keysIn := [keys37] } (fun t => t.key == keys37 && t.keysIn == []) ∧
    steps { State.reset with key := keys37 } (fun t => t.key == keys37) := by decide

/-- RomLoadPlacesTheImage: the longest image, and one byte more. -/
theorem witness_rom_load : State.reset.mem.wf ∧
    (List.replicate 3584 (0xAB : Byte)).length ≤ 3584 ∧ 3584 < (List.replicate 3585 (0xAB : Byte)).length := by
  simp only [List.length_replicate]
  decide

/-- StepKeepsTheInvariant: the reset state meets the invariant and takes a step. -/
theorem witness_invariant : State.reset.Inv ∧ steps State.reset (fun t => t.pc == 0x202) :=
  ⟨⟨by decide, by decide, by decide, by decide, by decide⟩, by decide⟩

/-- StepAlwaysAnswersAState: the lowest and the highest legal `sp`. -/
theorem witness_legal_sp : State.reset.sp.toNat ≤ 16 ∧ ({ State.reset with sp := 16 } : State).sp.toNat ≤ 16 := by decide

/-- ParkedMachineOnlyCountsDown: a parked state. -/
theorem witness_parked : parkedState.Parked :=
  ⟨by decide, by decide, 0x200, by decide, by decide⟩

/-- MemoryIsDeterminedByItsReads: two canonical memories that read alike. -/
theorem witness_memory : Memory.wf [(0x300, 0x12)] ∧ Memory.wf (Memory.write [] 0x300 0x12) ∧
    ∀ a, Memory.read [(0x300, 0x12)] a = Memory.read (Memory.write [] 0x300 0x12) a :=
  ⟨by decide, by decide, fun _ => rfl⟩

/-- DecodeOfEncodeIsTheInstruction: an instruction of every format at the highest operands, and a no-op. -/
theorem witness_decode_of_encode :
    [Instr.cls, .jp 0xFFF, .rnd 15 0xFF, .drw 15 15 15, .shl 15 15, .ldRegs 15, .nop 0xFFFF].all Instr.wf = true := by decide

/-- ExactlyTheUnassignedWordsAreNops: an unassigned word and an assigned one. -/
theorem witness_unassigned : unassigned 0x8008 = true ∧ unassigned 0x8AB4 = false := by decide

/-- EncodeOfDecodeIsTheWord: the word FFFF. -/
theorem witness_encode_of_decode : topOf 0xFFFF ≠ 0x0 ∧ topOf 0xFFFF ≠ 0x5 ∧ topOf 0xFFFF ≠ 0x9 ∧ topOf 0xFFFF ≠ 0xE := by decide

/-- JumpSetsPcToNnn, JumpWithOffsetSetsPcToTheSum, LoadImmediateWritesKk, AddImmediateWrapsWithoutFlag, LoadIndexWritesNnn,
ClearScreenTurnsEveryPixelOff, KeyWaitTakesTheLowestPressedKey: a word of each encoding, an alias word for `00E0`. -/
theorem witness_masks :
    (0x1FFF : Word) &&& 0xF000 = 0x1000 ∧ (0xBFFF : Word) &&& 0xF000 = 0xB000 ∧ (0x6F2A : Word) &&& 0xF000 = 0x6000 ∧
    (0x7F01 : Word) &&& 0xF000 = 0x7000 ∧ (0xA000 : Word) &&& 0xF000 = 0xA000 ∧ (0x0FF0 : Word) &&& 0xF00F = 0x0000 ∧
    (0xFF0A : Word) &&& 0xF0FF = 0xF00A := by decide

/-- AddImmediateWrapsWithoutFlag: a register other than 15. -/
theorem witness_add_immediate : (14 : Reg) ≠ 15 := by decide

/-- CallPushesTheReturnAddress: the first and the last slot. -/
theorem witness_call : State.reset.sp.toNat = (0 : Fin 16).val ∧ ({ State.reset with sp := 15 } : State).sp.toNat = (15 : Fin 16).val := by decide

/-- ReturnPopsTheReturnAddress: one entry and a full stack. -/
theorem witness_ret : ({ State.reset with sp := 1 } : State).sp.toNat = (0 : Fin 16).val + 1 ∧
    ({ State.reset with sp := 16 } : State).sp.toNat = (15 : Fin 16).val + 1 := by decide

/-- StackLimitsRaiseOrStop: `sp` at 0, 16 and 17. -/
theorem witness_stack_limits : State.reset.sp.toNat = 0 ∧ ({ State.reset with sp := 16 } : State).sp.toNat = 16 ∧
    16 < ({ State.reset with sp := 17 } : State).sp.toNat := by decide

/-- ReturnUndoesCall: the last slot. -/
theorem witness_return_undoes_call : ({ State.reset with sp := 15 } : State).sp.toNat < 16 := by decide

/-- OnlyTheListedInstructionsWriteTheFlag: an instruction of the list and one outside it, both with a next state. -/
theorem witness_flag :
    (Claims.writesFlag (.addReg 15 1) ∧ execs (.addReg 15 1) State.reset (fun t => t.fault.cause == .none)) ∧
    (¬Claims.writesFlag (.ldImm 1 7) ∧ ¬Claims.writesReg (.ldImm 1 7) 15 ∧ execs (.ldImm 1 7) State.reset (fun _ => true)) :=
  ⟨⟨trivial, by decide⟩, id, (by decide : ¬(15 : Reg) = 1), by decide⟩

/-- RandomIsADrawMaskedByKk: a waiting byte, and none. -/
theorem witness_random : ({ State.reset with rndIn := [0xA7] } : State).rndIn = 0xA7 :: [] ∧ State.reset.rndIn = [] := by decide

/-- FontAddressOfADigit: the last digit and the first value above. -/
theorem witness_font : ((with12 15 0).reg 1).toNat ≤ 15 ∧ 15 < ((with12 16 0).reg 1).toNat := by decide

/-- DecimalDigitsAreStored: the last range that fits. -/
theorem witness_decimal : State.reset.mem.wf ∧ ({ State.reset with i := 0xFFD } : State).i.toNat + 2 ≤ 0xFFF := by decide

/-- BlockStoreWritesTheRegisters, BlockLoadReadsTheRegisters, BlockLoadAfterStoreRestoresRegisters: one and 16 registers at the top of memory. -/
theorem witness_block : State.reset.mem.wf ∧
    ({ State.reset with i := 0xFFF } : State).i.toNat + (0 : Reg).val ≤ 0xFFF ∧
    ({ State.reset with i := 0xFF0 } : State).i.toNat + (15 : Reg).val ≤ 0xFFF := by decide

/-- AccessAboveMemoryRaisesMemBounds: the last byte out of range, and `I` itself out of range. -/
theorem witness_mem_bounds :
    (Claims.dataLength (.ldB 1) ≠ 0 ∧ 0xFFF < ({ State.reset with i := 0xFFE } : State).i.toNat + Claims.dataLength (.ldB 1) - 1) ∧
    (Claims.dataLength (.drw 1 2 1) ≠ 0 ∧
      0xFFF < ({ State.reset with i := 0x1000 } : State).i.toNat + Claims.dataLength (.drw 1 2 1) - 1) ∧
    (Claims.dataLength (.stRegs 15) ≠ 0 ∧
      0xFFF < ({ State.reset with i := 0xFF1 } : State).i.toNat + Claims.dataLength (.stRegs 15) - 1) ∧
    (Claims.dataLength (.ldRegs 0) ≠ 0 ∧
      0xFFF < ({ State.reset with i := 0xFFFF } : State).i.toNat + Claims.dataLength (.ldRegs 0) - 1) := by decide

/-- DrawXorsTheSpriteOntoTheScreen, DrawAfterClearShowsTheSprite: no row, and the last row that fits. -/
theorem witness_draw : ((0 : Nibble) = 0) ∧
    ({ State.reset with i := 0xFF1 } : State).i.toNat + (15 : Nibble).toNat - 1 ≤ 0xFFF := by decide

/-- DrawingTwiceRestoresTheScreen: vector G11, whose first draw hits nothing and whose sprite has bits of 1. -/
theorem witness_draw_twice : (1 : Reg) ≠ 15 ∧ (2 : Reg) ≠ 15 ∧
    ({ State.reset with i := 0x050 } : State).i.toNat + (1 : Nibble).toNat - 1 ≤ 0xFFF ∧
    execs (.drw 1 2 1) { State.reset with i := 0x050 } (fun t => t.reg 15 == 0 && t.screen.at 0 0) ∧
    Memory.read State.reset.mem 0x050 ≠ 0 := by decide

/-- KeySkipsFollowTheKey: the last key, and the first value above. -/
theorem witness_key_skips : ((with12 15 0).reg 1).toNat = (15 : Fin 16).val ∧ 15 < ((with12 16 0).reg 1).toNat := by decide

/-- KeyWaitTakesTheLowestPressedKey: key 3 pressed and none lower, key 0 pressed, and no key pressed. -/
theorem witness_key_wait :
    (keys37[(3 : Fin 16)] = true ∧ ∀ j < (3 : Fin 16), keys37[j] = false) ∧
    (((Vector.replicate 16 false).set 0 true : Keypad)[(0 : Fin 16)] = true ∧
      ∀ j < (0 : Fin 16), ((Vector.replicate 16 false).set 0 true : Keypad)[j] = false) ∧
    ∀ k : Fin 16, State.reset.key[k] = false := by decide

/-- The one keypad array presented to `waitingState` shows no key. -/
theorem waiting_arrays : ∀ keys ∈ waitingState.keysIn.take 2, Claims.noKey keys := by
  intro keys h
  have e : waitingState.keysIn.take 2 = [Vector.replicate 16 false] := rfl
  have : keys = Vector.replicate 16 false := by rw [e] at h; simpa using h
  rw [this]
  exact (by decide : ∀ k : Fin 16, (Vector.replicate 16 false)[k] = false)

/-- KeyWaitHoldsThePcWhileNoKeyIsPressed: no array waits and the last snapshot shows no key. -/
theorem witness_key_wait_snapshot : let s := { waitingState with keysIn := [] }
    Fetches s ∧ decode s.fetchWord = .ldVxK 5 ∧ s.keysIn = [] ∧ Claims.noKey s.key ∧ s.keysIn.take 2 = [] :=
  ⟨by decide, by decide, rfl, (by decide : ∀ k : Fin 16, waitingState.key[k] = false), rfl⟩

/-- KeyWaitHoldsThePcWhileNoKeyIsPressed: an array without a key waits, whatever the last snapshot shows. -/
theorem witness_key_wait_presented : let s := { waitingState with key := keys37 }
    Fetches s ∧ decode s.fetchWord = .ldVxK 5 ∧ (s.keysIn = [] → Claims.noKey s.key) ∧
    (∀ keys ∈ s.keysIn.take 2, Claims.noKey keys) ∧ steps s (fun t => t.pc == 0x200) :=
  ⟨by decide, by decide, fun h => absurd h (by decide), waiting_arrays, by decide⟩

/-- NopOnlyAdvances: the word 8008. -/
theorem witness_nop : Fetches (placed 0x8008 State.reset) ∧ unassigned (Claims.wordAtPc (placed 0x8008 State.reset)) = true := by decide

/-- InstructionsWriteOnlyWhatTheAccessTableLists: a storing instruction and a register instruction with a next state. -/
theorem witness_frame : State.reset.mem.wf ∧
    execs (.ldB 1) (with12 156 0) (fun _ => true) ∧ execs (.addReg 1 2) State.reset (fun _ => true) ∧
    (0xFFF < (with12 156 0).dataAddr 0 ∨ (with12 156 0).dataAddr (Claims.dataLength (.ldB 1)) ≤ 0xFFF) := by decide

end Sys2Proof.Tests
end

/-! The fetched word (20_memory.md R42): its bytes and fields, and that no handler writes the latched `opcode`. -/

namespace Sys2Proof

/-! ### The word of two bytes -/

/-- The formula of R42. -/
theorem wordOfBytes_eq_shift_or (hi lo : Byte) :
    wordOfBytes hi lo = (hi.zeroExtend 16 <<< 8) ||| lo.zeroExtend 16 :=
  BitVec.setWidth_append_eq_shiftLeft_setWidth_or (b := hi) (b' := lo) (w'' := 16)

@[simp] theorem highByte_wordOfBytes (hi lo : Byte) : highByte (wordOfBytes hi lo) = hi :=
  BitVec.extractLsb'_append_eq_left

@[simp] theorem lowByte_wordOfBytes (hi lo : Byte) : lowByte (wordOfBytes hi lo) = lo :=
  BitVec.extractLsb'_append_eq_right

@[simp] theorem kkOf_wordOfBytes (hi lo : Byte) : kkOf (wordOfBytes hi lo) = lo :=
  BitVec.extractLsb'_append_eq_right

@[simp] theorem topOf_wordOfBytes (hi lo : Byte) : topOf (wordOfBytes hi lo) = hi.extractLsb' 4 4 :=
  BitVec.extractLsb'_append_eq_of_le (by decide)

@[simp] theorem regField_xOf_wordOfBytes (hi lo : Byte) :
    regField (xOf (wordOfBytes hi lo)) = hi.extractLsb' 0 4 :=
  BitVec.extractLsb'_append_eq_of_le (by decide)

@[simp] theorem regField_yOf_wordOfBytes (hi lo : Byte) :
    regField (yOf (wordOfBytes hi lo)) = lo.extractLsb' 4 4 :=
  BitVec.extractLsb'_append_eq_of_add_le (by decide)

@[simp] theorem nOf_wordOfBytes (hi lo : Byte) : nOf (wordOfBytes hi lo) = lo.extractLsb' 0 4 :=
  BitVec.extractLsb'_append_eq_of_add_le (by decide)

end Sys2Proof

namespace Sys2Proof.Machine

/-! ### The latched word -/

/-- An effect leaves `opcode` alone (R28: only the latch and reset write it). -/
theorem effect_opcode {i : Instr} {s t : State} (h : Effect i s t) : t.opcode = s.opcode := by
  cases i
  case ret | call | skp | sknp => obtain ⟨k, -, rfl⟩ := h; simp
  case ldVxK => rcases h with ⟨k, -, rfl⟩ | ⟨-, rfl⟩ <;> simp
  case ldB | stRegs | ldRegs => obtain ⟨-, rfl⟩ := h; simp
  all_goals
    rcases h with rfl
    simp

/-- No handler writes `opcode`, whether it raises or not. -/
theorem exec_opcode {i : Instr} {s t : State} (h : exec i s = .next t) : t.opcode = s.opcode := by
  rcases exec_next_cases h with ⟨c, n, -, -, rfl⟩ | he
  · rfl
  · exact effect_opcode he

/-- A cycle that ends with a running machine had its handler leave a running state, whose timers then counted down
(R80, R84). -/
theorem step_next_running {s t : State} (h : step s = .next t) (ht : t.Running) :
    ∃ u, exec (decode s.fetchWord) s.sampleKeys.latch = .next u ∧ u.Running ∧ t = u.tickTimers := by
  rcases step_next_cases h with ⟨hs, rfl⟩ | ⟨-, -, rfl⟩ | ⟨-, -, u, hu, ⟨hr, rfl⟩ | ⟨hh, rfl⟩⟩
  · exact absurd ht hs
  · exact absurd ht (by simp [State.Running])
  · exact ⟨u, hu, hr, rfl⟩
  · exact absurd ht hh

/-- A cycle that completes latches the fetched word (R81). -/
theorem step_opcode {s t : State} (h : step s = .next t) (ht : t.Running) : t.opcode = s.fetchWord := by
  obtain ⟨u, hu, -, rfl⟩ := step_next_running h ht
  exact exec_opcode hu

/-- Settles O3: the fetched word is `wordOfBytes` of the two bytes at `pc`, and the handler keeps what was latched. -/
theorem fetchIsBigEndian : Obligations.FetchIsBigEndian := by
  refine ⟨fun s => ?_, fun s h0 h1 => ?_, fun s t _ _ h ht => step_opcode h ht⟩
  · exact ⟨wordOfBytes_eq_shift_or _ _, highByte_wordOfBytes _ _, lowByte_wordOfBytes _ _, topOf_wordOfBytes _ _,
      regField_xOf_wordOfBytes _ _, regField_yOf_wordOfBytes _ _, nOf_wordOfBytes _ _, kkOf_wordOfBytes _ _⟩
  · rw [State.fetchWord, h0, h1]
    rfl

end Sys2Proof.Machine

/-! The immediate forms (42_alu.md R120, R121): the top nibble selects them, and they write `V[x]` only. -/

namespace Sys2Proof.Machine

/-- The meaning of `6xkk` (R120). -/
theorem exec_ldImm (x : Reg) (kk : Byte) (s : State) : exec (.ldImm x kk) s = .next (s.setReg x kk) := rfl

/-- The meaning of `7xkk` (R121). -/
theorem exec_addImm (x : Reg) (kk : Byte) (s : State) : exec (.addImm x kk) s = .next (s.setReg x (s.reg x + kk)) := rfl

/-- The registers do not alias one another (R11). -/
theorem State.reg_setReg_of_ne (s : State) {x y : Reg} (h : x ≠ y) (b : Byte) : (s.setReg x b).reg y = s.reg y := by
  rw [State.reg_setReg, if_neg h]

/-- Settles O31: mask F000 with match 6000 fixes the top nibble, and the load is one register write. -/
theorem loadImmediateWritesKk : Obligations.LoadImmediateWritesKk :=
  ⟨fun w h => decode_ldImm ((match_F000 w 0x6).mp h), exec_ldImm⟩

/-- Settles O32: mask F000 with match 7000 fixes the top nibble, and the 8-bit sum is one register write. -/
theorem addImmediateWrapsWithoutFlag : Obligations.AddImmediateWrapsWithoutFlag := by
  refine ⟨fun w h => decode_addImm ((match_F000 w 0x7).mp h), fun x kk s => ?_⟩
  exact ⟨s.reg x + kk, BitVec.toNat_add .., exec_addImm x kk s, fun hx => s.reg_setReg_of_ne (y := flagReg) hx _⟩

end Sys2Proof.Machine

/-! The index load (43_index_memory.md R150): the top nibble selects it, and it writes `I` only. -/

namespace Sys2Proof.Machine

/-- The meaning of `Annn` (R150). -/
theorem exec_ldI (nnn : Addr12) (s : State) : exec (.ldI nnn) s = .next { s with i := address nnn } := rfl

/-- Settles O38: mask F000 with match A000 fixes the top nibble, and the load is one write of `I`. -/
theorem loadIndexWritesNnn : Obligations.LoadIndexWritesNnn :=
  ⟨fun w h => decode_ldI ((match_F000 w 0xA).mp h), exec_ldI⟩

end Sys2Proof.Machine

/-! The decoder and the encoder (30_encoding.md R60 to R71): which words are no-ops, the row table, and the round
trips. -/

namespace Sys2Proof

/-! ### No-ops (R67) -/

/-- The list of R67 in terms of the fields. -/
theorem unassigned_iff (w : Word) : unassigned w = true ↔
    (topOf w = 0x0 ∧ nOf w ≠ 0x0 ∧ nOf w ≠ 0xE) ∨
    (topOf w = 0x8 ∧ nOf w ∈ [0x8, 0x9, 0xA, 0xB, 0xC, 0xD, 0xF]) ∨
    (topOf w = 0xE ∧ nOf w ≠ 0x1 ∧ nOf w ≠ 0xE) ∨
    (topOf w = 0xF ∧ kkOf w ∉ [0x07, 0x0A, 0x15, 0x18, 0x1E, 0x29, 0x33, 0x55, 0x65]) := by
  have : unassigned w = ((topOf w == 0x0 && !([0x0, 0xE].contains (nOf w)))
    || (topOf w == 0x8 && [0x8, 0x9, 0xA, 0xB, 0xC, 0xD, 0xF].contains (nOf w))
    || (topOf w == 0xE && !([0x1, 0xE].contains (nOf w)))
    || (topOf w == 0xF && !([0x07, 0x0A, 0x15, 0x18, 0x1E, 0x29, 0x33, 0x55, 0x65].contains (kkOf w)))) := rfl
  rw [this]
  simp [or_assoc]

/-- The primary table has an entry for every top nibble (R63). -/
theorem nibble_cases (t : Nibble) :
    t = 0x0 ∨ t = 0x1 ∨ t = 0x2 ∨ t = 0x3 ∨ t = 0x4 ∨ t = 0x5 ∨ t = 0x6 ∨ t = 0x7 ∨
    t = 0x8 ∨ t = 0x9 ∨ t = 0xA ∨ t = 0xB ∨ t = 0xC ∨ t = 0xD ∨ t = 0xE ∨ t = 0xF := by
  revert t
  decide

/-- The no-ops of secondary table 0 (R64). -/
theorem decodeFamily0_nop_iff (w w' : Word) :
    decodeFamily0 w = .nop w' ↔ (nOf w ≠ 0x0 ∧ nOf w ≠ 0xE) ∧ w' = w := by
  unfold decodeFamily0
  split <;> simp_all [eq_comm]

/-- The no-ops of secondary table 8 (R64). -/
theorem decodeFamily8_nop_iff (w w' : Word) :
    decodeFamily8 w = .nop w' ↔ nOf w ∈ [0x8, 0x9, 0xA, 0xB, 0xC, 0xD, 0xF] ∧ w' = w := by
  unfold decodeFamily8
  rcases nibble_cases (nOf w) with h | h | h | h | h | h | h | h | h | h | h | h | h | h | h | h <;> simp [h, eq_comm]

/-- The no-ops of secondary table E (R64). -/
theorem decodeFamilyE_nop_iff (w w' : Word) :
    decodeFamilyE w = .nop w' ↔ (nOf w ≠ 0x1 ∧ nOf w ≠ 0xE) ∧ w' = w := by
  unfold decodeFamilyE
  split <;> simp_all [eq_comm]

/-- The no-ops of secondary table F (R65). -/
theorem decodeFamilyF_nop_iff (w w' : Word) :
    decodeFamilyF w = .nop w' ↔
      kkOf w ∉ [0x07, 0x0A, 0x15, 0x18, 0x1E, 0x29, 0x33, 0x55, 0x65] ∧ w' = w := by
  unfold decodeFamilyF
  split <;> simp_all [eq_comm]

/-- A word decodes to a no-op exactly when it is unassigned, and then to the no-op of itself (R67). -/
theorem decode_nop_iff (w w' : Word) : decode w = .nop w' ↔ unassigned w = true ∧ w' = w := by
  rw [unassigned_iff]
  by_cases h0 : topOf w = 0x0
  · simp [decode_family0 h0, decodeFamily0_nop_iff, h0]
  by_cases h8 : topOf w = 0x8
  · simp [decode_family8 h8, decodeFamily8_nop_iff, h8]
  by_cases hE : topOf w = 0xE
  · simp [decode_familyE hE, decodeFamilyE_nop_iff, hE]
  by_cases hF : topOf w = 0xF
  · simp [decode_familyF hF, decodeFamilyF_nop_iff, hF]
  rcases nibble_cases (topOf w) with h | h | h | h | h | h | h | h | h | h | h | h | h | h | h | h <;>
    simp_all [decode]

/-- Every word decodes to a well-formed instruction (R67). -/
theorem decode_wf (w : Word) : (decode w).wf = true := by
  cases h : decode w
  case nop w' =>
    obtain ⟨hw, rfl⟩ := (decode_nop_iff w w').mp h
    exact hw
  all_goals rfl

/-- Settles O21: the four secondary tables give the no-op exactly on the words of R67. -/
theorem exactlyTheUnassignedWordsAreNops : Obligations.ExactlyTheUnassignedWordsAreNops := by
  refine fun w => ⟨decode_wf w, fun h => (decode_nop_iff w w).mpr ⟨h, rfl⟩, fun h w' hd => ?_⟩
  simp [((decode_nop_iff w w').mp hd).1] at h

/-! ### The row table (R71) -/

/-- A word that meets a row's mask and match decodes to that row's instruction (R66). -/
theorem decode_of_row (w : Word) : ∀ row ∈ decodeRows, w &&& row.mask = row.value → decode w = row.instr w := by
  have f000 (t : Nibble) := (match_F000 w t).mp
  have f00f (t c : Nibble) {p : Prop} (f : topOf w = t → nOf w = c → p) := And.elim f ∘ (match_F00F w t c).mp
  have f0ff (c : Byte) {p : Prop} (f : topOf w = 0xF → kkOf w = c → p) := And.elim f ∘ (match_F0FF w 0xF c).mp
  simp only [decodeRows, decodeRowsFlow, decodeRowsAlu, decodeRowsRest, List.cons_append, List.nil_append,
    List.forall_mem_cons, List.not_mem_nil, false_implies, implies_true, and_true]
  exact ⟨f00f 0x0 0x0 decode_cls, f00f 0x0 0xE decode_ret, decode_jp ∘ f000 0x1, decode_jpV0 ∘ f000 0xB,
    decode_call ∘ f000 0x2, decode_seImm ∘ f000 0x3, decode_sneImm ∘ f000 0x4, decode_seReg ∘ f000 0x5,
    decode_sneReg ∘ f000 0x9, decode_ldImm ∘ f000 0x6, decode_addImm ∘ f000 0x7,
    f00f 0x8 0x0 decode_ldReg, f00f 0x8 0x1 decode_orReg, f00f 0x8 0x2 decode_andReg, f00f 0x8 0x3 decode_xorReg,
    f00f 0x8 0x4 decode_addReg, f00f 0x8 0x5 decode_subReg, f00f 0x8 0x6 decode_shr, f00f 0x8 0x7 decode_subnReg,
    f00f 0x8 0xE decode_shl, decode_ldI ∘ f000 0xA, f0ff 0x1E decode_addI, decode_rnd ∘ f000 0xC,
    decode_drw ∘ f000 0xD, f00f 0xE 0xE decode_skp, f00f 0xE 0x1 decode_sknp, f0ff 0x07 decode_ldVxDT,
    f0ff 0x15 decode_ldDTVx, f0ff 0x18 decode_ldSTVx, f0ff 0x0A decode_ldVxK, f0ff 0x29 decode_ldF,
    f0ff 0x33 decode_ldB, f0ff 0x55 decode_stRegs, f0ff 0x65 decode_ldRegs⟩

/-- Settles O20: a word of two rows would give their matches the same value under both masks. -/
theorem instructionRowsAreMutuallyExclusive : Obligations.InstructionRowsAreMutuallyExclusive := by
  have differ : decodeRows.Pairwise fun a b => a.value &&& b.mask ≠ b.value &&& a.mask := by decide
  refine ⟨rfl, differ.imp fun {a b} hd w ⟨ha, hb⟩ => hd ?_⟩
  rw [← ha, ← hb, BitVec.and_assoc, BitVec.and_assoc, BitVec.and_comm a.mask]

/-- `match_F000` for a row's match as it is printed. -/
theorem and_F000_eq_iff {w v : Word} (hv : formatR (topOf v) 0 0 0 = v) : w &&& 0xF000 = v ↔ topOf w = topOf v := by
  rw [← match_F000, hv]

/-- `match_F00F` for a row's match as it is printed. -/
theorem and_F00F_eq_iff {w v : Word} (hv : formatR (topOf v) 0 0 (nOf v) = v) :
    w &&& 0xF00F = v ↔ topOf w = topOf v ∧ nOf w = nOf v := by
  rw [← match_F00F, hv]

/-- `match_F0FF` for a row's match as it is printed. -/
theorem and_F0FF_eq_iff {w v : Word} (hv : formatI (topOf v) 0 (kkOf v) = v) :
    w &&& 0xF0FF = v ↔ topOf w = topOf v ∧ kkOf w = kkOf v := by
  rw [← match_F0FF, hv]

/-- The low nibbles outside the rows of family 8 are those R67 lists. -/
theorem unassigned_low_nibble (n : Nibble)
    (h : n ≠ 0x0 ∧ n ≠ 0x1 ∧ n ≠ 0x2 ∧ n ≠ 0x3 ∧ n ≠ 0x4 ∧ n ≠ 0x5 ∧ n ≠ 0x6 ∧ n ≠ 0x7 ∧ n ≠ 0xE) :
    n ∈ [(0x8 : Nibble), 0x9, 0xA, 0xB, 0xC, 0xD, 0xF] := by
  revert n
  decide

/-- A word that meets no row's mask and match is unassigned (R67, R71). -/
theorem unassigned_of_no_row {w : Word} (h : ∀ row ∈ decodeRows, ¬w &&& row.mask = row.value) :
    unassigned w = true := by
  have h8 := unassigned_low_nibble (nOf w)
  rw [unassigned_iff]
  simp (disch := decide) only [decodeRows, decodeRowsFlow, decodeRowsAlu, decodeRowsRest, List.cons_append,
    List.nil_append, List.forall_mem_cons, List.not_mem_nil, false_implies, implies_true, and_true, and_F000_eq_iff,
    and_F00F_eq_iff, and_F0FF_eq_iff] at h
  simp only [topOf, nOf, kkOf, BitVec.reduceExtractLsb'] at h h8 ⊢
  rcases nibble_cases (w.extractLsb' 12 4) with
    ht | ht | ht | ht | ht | ht | ht | ht | ht | ht | ht | ht | ht | ht | ht | ht <;> simp [ht] at h ⊢
  · exact h
  · simpa using h8 h
  · exact h.symm
  · simp [h]

/-- Settles O19: the first row found gives the instruction of the dispatch, and where none is found the word is
unassigned. -/
theorem twoLevelDispatchEqualsTheRowTable : Obligations.TwoLevelDispatchEqualsTheRowTable := by
  intro w
  unfold decodeByRows
  split
  next row h => exact decode_of_row w row (List.mem_of_find?_eq_some h) (by simpa using List.find?_some h)
  next h =>
    have unmatched : ∀ row ∈ decodeRows, ¬w &&& row.mask = row.value := by simpa using h
    exact (decode_nop_iff w w).mpr ⟨unassigned_of_no_row unmatched, rfl⟩

/-! ### Round trips (R69) -/

/-- Settles O18: the fields of the formats read back, format by format. -/
theorem decodeOfEncodeIsTheInstruction : Obligations.DecodeOfEncodeIsTheInstruction := by
  intro i hi
  cases i
  case cls | ret => decide
  case nop w => exact (decode_nop_iff w w).mpr ⟨hi, rfl⟩
  case jp | jpV0 | call | ldI => simp [encode, decode_jp, decode_jpV0, decode_call, decode_ldI]
  case seReg | sneReg | drw => simp [encode, decode_seReg, decode_sneReg, decode_drw]
  case seImm | sneImm | ldImm | addImm | rnd =>
    simp [encode, decode_seImm, decode_sneImm, decode_ldImm, decode_addImm, decode_rnd]
  case skp | sknp => simp [encode, decode_skp, decode_sknp]
  case ldReg | orReg | andReg | xorReg | addReg | subReg | shr | subnReg | shl =>
    simp [encode, decode_family8, decodeFamily8]
  all_goals simp [encode, decode_familyF, decodeFamilyF]

/-- A word of format A from its own fields, the top nibble known. -/
theorem formatA_of_top {w : Word} {t : Nibble} (h : topOf w = t) : formatA t (nnnOf w) = w :=
  h ▸ formatA_fields w

/-- A word of format I from its own fields, the top nibble known. -/
theorem formatI_of_top {w : Word} {t : Nibble} (h : topOf w = t) : formatI t (xOf w) (kkOf w) = w :=
  h ▸ formatI_fields w

/-- A word of format R from its own fields, the top nibble known. -/
theorem formatR_of_top {w : Word} {t : Nibble} (h : topOf w = t) : formatR t (xOf w) (yOf w) (nOf w) = w :=
  h ▸ formatR_fields w

/-- In family 8 no bit is dropped (R64). -/
theorem encode_decodeFamily8 {w : Word} (h : topOf w = 0x8) : encode (decodeFamily8 w) = w := by
  have hw := formatR_of_top h
  unfold decodeFamily8
  split <;> simp_all [encode]

/-- In family F no bit is dropped (R65). -/
theorem encode_decodeFamilyF {w : Word} (h : topOf w = 0xF) : encode (decodeFamilyF w) = w := by
  have hw := formatI_of_top h
  unfold decodeFamilyF
  split <;> simp_all [encode]

/-- Settles O22: every decoded instruction is well-formed, and outside the alias families its operands are all the
fields of the word. -/
theorem encodeOfDecodeIsTheWord : Obligations.EncodeOfDecodeIsTheWord := by
  refine fun w => ⟨decodeOfEncodeIsTheInstruction _ (decode_wf w), fun h0 h5 h9 hE => ?_⟩
  by_cases h8 : topOf w = 0x8
  · rw [decode_family8 h8]
    exact encode_decodeFamily8 h8
  by_cases hF : topOf w = 0xF
  · rw [decode_familyF hF]
    exact encode_decodeFamilyF hF
  rcases nibble_cases (topOf w) with h | h | h | h | h | h | h | h | h | h | h | h | h | h | h | h <;>
    simp_all [decode, encode, formatA_of_top, formatI_of_top, formatR_of_top]

/-- Settles O23: each word is evaluated. -/
theorem sampleWordsDecode : Obligations.SampleWordsDecode := by
  unfold Obligations.SampleWordsDecode
  decide

end Sys2Proof

/-! The handlers case by case: what each answers, and that it raises exactly what the table of faults says
(41_flow.md, 42_alu.md, 43_index_memory.md, 45_keypad_timers.md, 60_exceptions.md R201). -/

namespace Sys2Proof.Machine

/-! ### Jumps and skips (R101 to R108) -/

/-- Settles O24: mask F000 with match 1000 fixes the top nibble, and the jump is one write of `pc`. -/
theorem jumpSetsPcToNnn : Obligations.JumpSetsPcToNnn :=
  ⟨fun w h => decode_jp ((match_F000 w 0x1).mp h), fun _ _ => rfl⟩

/-- The sum of `Bnnn` does not wrap (R103). -/
theorem toNat_jumpTarget (b : Byte) (nnn : Addr12) : (wordOfByte b + address nnn).toNat = b.toNat + nnn.toNat := by
  rw [BitVec.toNat_add, toNat_wordOfByte, toNat_address]
  omega

/-- Settles O25: as for `1nnn`; the 16-bit sum of a byte and a 12-bit address is the sum of the numbers. -/
theorem jumpWithOffsetSetsPcToTheSum : Obligations.JumpWithOffsetSetsPcToTheSum :=
  ⟨fun w h => decode_jpV0 ((match_F000 w 0xB).mp h), fun nnn s => ⟨_, toNat_jumpTarget (s.reg 0) nnn, rfl⟩⟩

/-- A skip whose condition is an equality test (R108). -/
theorem skipIf_beq {α : Type} [DecidableEq α] (s : State) (a b : α) :
    s.skipIf (a == b) = if a = b then { s with pc := s.pc + 2 } else s := by
  simp [State.skipIf]

/-- A skip whose condition is an inequality test (R108). -/
theorem skipIf_bne {α : Type} [DecidableEq α] (s : State) (a b : α) :
    s.skipIf (a != b) = if a = b then s else { s with pc := s.pc + 2 } := by
  simp only [State.skipIf, bne_iff_ne, ne_eq, ite_not]

/-- Settles O30: each skip is the skip on its test. -/
theorem skipsAddTwoWhenTheirConditionHolds : Obligations.SkipsAddTwoWhenTheirConditionHolds := fun x y kk s =>
  ⟨congrArg _ (skipIf_beq s (s.reg x) kk), congrArg _ (skipIf_bne s (s.reg x) kk),
    congrArg _ (skipIf_beq s (s.reg x) (s.reg y)), congrArg _ (skipIf_bne s (s.reg x) (s.reg y))⟩

/-! ### Call and return (R100, R102) -/

/-- A call with a free slot (R102). -/
theorem exec_call_of_lt (nnn : Addr12) {s : State} {k : Fin 16} (h : s.sp.toNat = k.val) :
    exec (.call nnn) s = .next { s with stack := s.stack.set k s.pc, sp := s.sp + 1, pc := address nnn } := by
  have hk : s.sp.toNat < 16 := h ▸ k.isLt
  have hne : s.sp ≠ 16 := fun h => absurd (h ▸ hk) (by decide)
  have hset : s.stack.setIfInBounds s.sp.toNat s.pc = s.stack.set k s.pc := by
    simp [Vector.set, Vector.setIfInBounds, Array.setIfInBounds, h]
  simp only [exec, execCall, if_neg hne, if_pos hk, State.push, hset]

/-- A call on a full stack (R102, R201). -/
theorem exec_call_full (nnn : Addr12) {s : State} (h : s.sp.toNat = 16) :
    exec (.call nnn) s = .next { s with fault := ⟨.stackOverflow, s.pc - 2, s.opcode, 16⟩ } :=
  if_pos (BitVec.eq_of_toNat_eq h)

/-- A call with `sp` above 16 stops the model (log 7). -/
theorem exec_call_above (nnn : Addr12) {s : State} (h : 16 < s.sp.toNat) :
    exec (.call nnn) s = .fault .stackPointerOutOfRange := by
  have hne : s.sp ≠ 16 := fun hs => absurd (hs ▸ h) (by decide)
  simp only [exec, execCall, if_neg hne, if_neg (Nat.not_lt_of_gt h)]

/-- A return with a pushed address (R100). -/
theorem exec_ret_of_succ {s : State} {k : Fin 16} (h : s.sp.toNat = k.val + 1) :
    exec .ret s = .next { s with sp := s.sp - 1, pc := s.stack[k] } := by
  have hne : s.sp ≠ 0 := fun hs => by simp [hs] at h
  simp only [exec, execRet, if_neg hne, State.stackEntry, h, Nat.add_sub_cancel, Vector.getElem?_eq_getElem k.isLt]
  rfl

/-- A return on an empty stack (R100, R201). -/
theorem exec_ret_empty {s : State} (h : s.sp.toNat = 0) :
    exec .ret s = .next { s with fault := ⟨.stackUnderflow, s.pc - 2, s.opcode, 0⟩ } :=
  if_pos (BitVec.eq_of_toNat_eq h)

/-- A return with `sp` above 16 stops the model (log 7). -/
theorem exec_ret_above {s : State} (h : 16 < s.sp.toNat) : exec .ret s = .fault .stackPointerOutOfRange := by
  have hne : s.sp ≠ 0 := fun hs => by simp [hs] at h
  have hnone : s.stackEntry (s.sp.toNat - 1) = none := Vector.getElem?_eq_none (by omega)
  simp only [exec, execRet, if_neg hne, hnone]

/-- Settles O26: `sp + 1` as a number. -/
theorem callPushesTheReturnAddress : Obligations.CallPushesTheReturnAddress := by
  intro nnn s k h
  have hsp : s.sp + 1 = BitVec.ofNat 8 (k.val + 1) := BitVec.eq_of_toNat_eq (by simp [h])
  rw [exec_call_of_lt nnn h, hsp]
  rfl

/-- Settles O27: `sp - 1` as a number. -/
theorem returnPopsTheReturnAddress : Obligations.ReturnPopsTheReturnAddress := by
  intro s k h
  have hsp : s.sp - 1 = BitVec.ofNat 8 k.val := by bv_omega
  rw [exec_ret_of_succ h, hsp]

/-- Settles O28: the two faults and the two stops. -/
theorem stackLimitsRaiseOrStop : Obligations.StackLimitsRaiseOrStop := fun nnn _ =>
  ⟨exec_call_full nnn, exec_ret_empty, exec_call_above nnn, exec_ret_above⟩

/-- Settles O29: the entry the return pops is the one the call pushed. -/
theorem returnUndoesCall : Obligations.ReturnUndoesCall := by
  intro nnn s p h
  let k : Fin 16 := ⟨s.sp.toNat, h⟩
  have hk : s.sp.toNat = k.val := rfl
  have hsp : (s.sp + 1).toNat = k.val + 1 := by bv_omega
  refine ⟨_, _, exec_call_of_lt nnn hk, exec_ret_of_succ (k := k) hsp, ?_, ?_⟩
  · simp
  · simp

/-! ### Registers and arithmetic (R122 to R131) -/

/-- Settles O33: each is one register write. -/
theorem moveAndLogicWriteOnlyVx : Obligations.MoveAndLogicWriteOnlyVx := fun _ _ _ => ⟨rfl, rfl, rfl, rfl⟩

/-- Settles O39: the 16-bit sum is one write of `I`. -/
theorem addIndexWrapsAtSixteenBits : Obligations.AddIndexWrapsAtSixteenBits := fun x s =>
  ⟨s.i + wordOfByte (s.reg x), by rw [BitVec.toNat_add, toNat_wordOfByte], rfl⟩

/-- A flag as a register holds it (R12). -/
theorem flagByte_decide (p : Prop) [Decidable p] : flagByte (decide p) = if p then 1 else 0 := by
  simp [flagByte]

/-- A flag is 0 or 1 (R12). -/
theorem flagByte_zero_or_one (f : Bool) : flagByte f = 0 ∨ flagByte f = 1 := by
  cases f
  · exact .inl rfl
  · exact .inr rfl

/-- The flag register is 1 exactly when the flag is set (R12). -/
@[simp] theorem flagByte_eq_one_iff (f : Bool) : flagByte f = 1 ↔ f = true := by
  cases f <;> decide

/-- `V[15]` after the flag is written (R12). -/
theorem State.reg_flag_setFlag (s : State) (f : Bool) : (s.setFlag f).reg 15 = flagByte f :=
  (s.reg_setFlag 15 f).trans (if_pos rfl)

/-- A result and its flag are two register writes, the flag last (R89). -/
theorem setResultAndFlag_eq (s : State) (x : Reg) (r : Byte) (p : Prop) [Decidable p] :
    s.setResultAndFlag x r (decide p) = { s with v := (s.v.set x r).set 15 (if p then 1 else 0) } := by
  rw [← flagByte_decide]
  rfl

/-- Settles O34: the 8-bit sum and differences as numbers. -/
theorem addAndSubtractSetTheirFlag : Obligations.AddAndSubtractSetTheirFlag := by
  intro x y s
  refine ⟨⟨s.reg x + s.reg y, BitVec.toNat_add .., ?_, congrArg _ (setResultAndFlag_eq ..)⟩,
    ⟨s.reg x - s.reg y, ?_, congrArg _ (setResultAndFlag_eq ..)⟩,
    ⟨s.reg y - s.reg x, ?_, congrArg _ (setResultAndFlag_eq ..)⟩⟩
  · rw [BitVec.toNat_add]
    omega
  · rw [BitVec.toNat_sub]
    omega
  · rw [BitVec.toNat_sub]
    omega

/-- The bit a right shift drops, as a register holds it (R128). -/
theorem flagByte_lowBit (a : Byte) : flagByte (lowBit a) = BitVec.ofNat 8 (a.toNat % 2) := by
  revert a
  decide

/-- The bit a left shift drops, as a register holds it (R130). -/
theorem flagByte_highBit (a : Byte) : flagByte (highBit a) = BitVec.ofNat 8 (a.toNat / 128) := by
  revert a
  decide

/-- Settles O35: the shifts as numbers, and the dropped bits. -/
theorem shiftsSetTheDroppedBit : Obligations.ShiftsSetTheDroppedBit := by
  intro x y s
  refine ⟨⟨s.reg x >>> 1, ?_, ?_⟩, ⟨s.reg x <<< 1, ?_, ?_⟩⟩
  · rw [BitVec.toNat_ushiftRight, Nat.shiftRight_eq_div_pow, Nat.pow_one]
  · rw [← flagByte_lowBit]
    rfl
  · rw [BitVec.toNat_shiftLeft, Nat.shiftLeft_eq, Nat.pow_one, Nat.mul_comm]
  · rw [← flagByte_highBit]
    rfl

/-- A masked byte has no bit outside the mask. -/
theorem masked_and_not (a b : Byte) : a &&& b &&& ~~~b = 0 := by
  rw [BitVec.and_assoc, BitVec.and_not_self]
  exact BitVec.and_zero

/-- Settles O37: the draw is the head of the waiting bytes, or the free value. -/
theorem randomIsADrawMaskedByKk : Obligations.RandomIsADrawMaskedByKk := by
  intro x kk s
  have hexec : exec (.rnd x kk) s = .next (s.consumeDraw.setReg x (s.drawnByte &&& kk)) := rfl
  refine ⟨fun r rest h => ?_, fun h => ⟨s.drawnByte, ?_⟩, _, hexec, ?_⟩
  · simp [hexec, State.consumeDraw, State.drawnByte, State.setReg, h]
  · simp [hexec, State.consumeDraw, State.setReg, h]
  · rw [State.reg_setReg, if_pos rfl]
    exact masked_and_not _ _

/-! ### Index register, memory, keys and timers: the answers that depend on a check -/

/-- A glyph address of a digit (R152). -/
theorem exec_ldF_of_le {x : Reg} {s : State} (h : (s.reg x).toNat ≤ 15) :
    exec (.ldF x) s = .next { s with i := glyphAddr (s.reg x) } :=
  if_neg (Nat.not_lt.mpr h)

/-- FONT_INDEX (R152, R201). -/
theorem exec_ldF_above {x : Reg} {s : State} (h : 15 < (s.reg x).toNat) :
    exec (.ldF x) s = .next { s with fault := ⟨.fontIndex, s.pc - 2, s.opcode, wordOfByte (s.reg x)⟩ } :=
  if_pos h

/-- Settles O40: the two outcomes of the check. -/
theorem fontAddressOfADigit : Obligations.FontAddressOfADigit := fun x s =>
  ⟨fun h => ⟨_, toNat_glyphAddr (s.reg x), exec_ldF_of_le h⟩, exec_ldF_above⟩

/-- The skip on a pressed key (R180). -/
theorem exec_skp_of_key {x : Reg} {s : State} {k : Fin 16} (h : (s.reg x).toNat = k.val) :
    exec (.skp x) s = .next (s.skipIf s.key[k]) := by
  simp [exec, execSkp, h, s.keyDown_lt k.isLt]

/-- The skip on a key that is not pressed (R181). -/
theorem exec_sknp_of_key {x : Reg} {s : State} {k : Fin 16} (h : (s.reg x).toNat = k.val) :
    exec (.sknp x) s = .next (s.skipIf (!s.key[k])) := by
  simp [exec, execSknp, h, s.keyDown_lt k.isLt]

/-- KEY_INDEX of `Ex9E` (R180, R201). -/
theorem exec_skp_above {x : Reg} {s : State} (h : 15 < (s.reg x).toNat) :
    exec (.skp x) s = .next { s with fault := ⟨.keyIndex, s.pc - 2, s.opcode, wordOfByte (s.reg x)⟩ } := by
  simp [exec, execSkp, s.keyDown_ge h]

/-- KEY_INDEX of `ExA1` (R181, R201). -/
theorem exec_sknp_above {x : Reg} {s : State} (h : 15 < (s.reg x).toNat) :
    exec (.sknp x) s = .next { s with fault := ⟨.keyIndex, s.pc - 2, s.opcode, wordOfByte (s.reg x)⟩ } := by
  simp [exec, execSknp, s.keyDown_ge h]

/-- Settles O50: the skip is the skip on the level of the key. -/
theorem keySkipsFollowTheKey : Obligations.KeySkipsFollowTheKey := by
  refine fun x s => ⟨fun k h => ⟨?_, ?_⟩, fun h => ⟨exec_skp_above h, exec_sknp_above h⟩⟩
  · exact exec_skp_of_key h
  · rw [exec_sknp_of_key h]
    cases s.key[k] <;> rfl

/-- Settles O51: each is one write. -/
theorem timerAccessMovesTheTimer : Obligations.TimerAccessMovesTheTimer := fun _ _ => ⟨rfl, rfl, rfl⟩

/-- The key wait with a key pressed (R185). -/
theorem exec_ldVxK_some (x : Reg) {s : State} {k : Reg} (h : s.lowestKey = some k) :
    exec (.ldVxK x) s = .next (s.setReg x (BitVec.ofNat 8 k.val)) := by
  simp only [exec, execLdVxK, h]

/-- The key wait with no key pressed (R185). -/
theorem exec_ldVxK_none (x : Reg) {s : State} (h : s.lowestKey = none) :
    exec (.ldVxK x) s = .next { s with pc := s.pc - 2 } := by
  simp only [exec, execLdVxK, h]

/-- Settles O52: mask F0FF with match F00A fixes the top nibble and the low byte; the scan finds the lowest key. -/
theorem keyWaitTakesTheLowestPressedKey : Obligations.KeyWaitTakesTheLowestPressedKey := by
  refine ⟨fun w h => ?_, fun x s => ⟨fun k hk low => ?_, fun h => ?_⟩⟩
  · obtain ⟨ht, hkk⟩ := (match_F0FF w 0xF 0x0A).mp h
    exact decode_ldVxK ht hkk
  · exact exec_ldVxK_some x (s.lowestKey_some hk low)
  · exact exec_ldVxK_none x (s.lowestKey_none h)

/-- Settles O46: mask F00F with match 0000 fixes the top and the low nibble; the dark screen has no pixel on. -/
theorem clearScreenTurnsEveryPixelOff : Obligations.ClearScreenTurnsEveryPixelOff := by
  refine ⟨fun w h => ?_, fun s => ⟨Screen.dark, rfl, Screen.at_dark⟩⟩
  obtain ⟨ht, hn⟩ := (match_F00F w 0x0 0x0).mp h
  exact decode_cls ht hn

end Sys2Proof.Machine

/-! The table of faults (60_exceptions.md R201) and the frame of every instruction (10_state.md R28). -/

namespace Sys2Proof.Machine

/-! ### Checked accesses (R46) -/

/-- Where MEM_BOUNDS is not raised the range is inside memory. -/
theorem raisesMemBounds_eq_none_iff (s : State) (len : Nat) :
    Claims.raisesMemBounds s len = none ↔ s.dataInRange len = true := by
  rw [State.dataInRange_iff, Claims.raisesMemBounds]
  split
  next h => exact ⟨nofun, fun h' => by omega⟩
  next h => exact ⟨fun _ => by omega, fun _ => rfl⟩

/-- Where MEM_BOUNDS is raised the range is not inside memory, and the info is the lowest bad address. -/
theorem raisesMemBounds_eq_some {s : State} {len : Nat} {c : FaultCause} {n : Word}
    (h : Claims.raisesMemBounds s len = some (c, n)) :
    ¬s.dataInRange len = true ∧
    (.next { s with fault := ⟨c, s.pc - 2, s.opcode, n⟩ } : Result) = raiseMemBounds s := by
  have hbad : Claims.badAddress s = s.lowestBadAddr := by
    unfold Claims.badAddress State.lowestBadAddr
    split
    next h => rw [if_neg (Nat.not_lt.mpr h)]
    next h => rw [if_pos (Nat.lt_of_not_le h)]
  have hr : Claims.raisesMemBounds s len ≠ none := by simp [h]
  rw [Ne, raisesMemBounds_eq_none_iff] at hr
  refine ⟨hr, ?_⟩
  unfold Claims.raisesMemBounds at h
  split at h
  · cases h
    rw [hbad]
    rfl
  · cases h

/-- A data access above 0xFFF raises MEM_BOUNDS whatever the instruction (R46, R201). -/
theorem exec_of_not_dataInRange {i : Instr} {s : State} (hl : Claims.dataLength i ≠ 0)
    (h : ¬s.dataInRange (Claims.dataLength i) = true) : exec i s = raiseMemBounds s := by
  cases i
  case drw | ldB | stRegs | ldRegs => exact if_neg h
  all_goals exact absurd rfl hl

/-- Settles O44: the range check fails. -/
theorem accessAboveMemoryRaisesMemBounds : Obligations.AccessAboveMemoryRaisesMemBounds := by
  intro i s hl h
  refine exec_of_not_dataInRange hl fun hr => ?_
  rw [State.dataInRange_iff] at hr
  omega

/-! ### The table of faults (R201) -/

/-- An instruction raises the fault of its row. -/
theorem exec_of_raises {i : Instr} {s : State} {c : FaultCause} {n : Word} (h : Claims.raises i s = some (c, n)) :
    exec i s = .next { s with fault := ⟨c, s.pc - 2, s.opcode, n⟩ } := by
  cases i
  case drw | ldB | stRegs | ldRegs =>
    obtain ⟨hr, heq⟩ := raisesMemBounds_eq_some h
    exact heq ▸ if_neg hr
  case call nnn =>
    obtain ⟨hs, heq⟩ := Option.ite_none_right_eq_some.mp h
    cases heq
    exact exec_call_full nnn hs
  case ret =>
    obtain ⟨hs, heq⟩ := Option.ite_none_right_eq_some.mp h
    cases heq
    exact exec_ret_empty hs
  case ldF x =>
    obtain ⟨hx, heq⟩ := Option.ite_none_right_eq_some.mp h
    cases heq
    exact exec_ldF_above hx
  case skp x =>
    obtain ⟨hx, heq⟩ := Option.ite_none_right_eq_some.mp h
    cases heq
    exact exec_skp_above hx
  case sknp x =>
    obtain ⟨hx, heq⟩ := Option.ite_none_right_eq_some.mp h
    cases heq
    exact exec_sknp_above hx
  all_goals cases h

/-- An instruction whose row raises nothing has its effect, or is a call or a return with `sp` above 16 (log 7). -/
theorem exec_of_not_raises {i : Instr} {s : State} (h : Claims.raises i s = none) :
    (∃ t, exec i s = .next t ∧ Effect i s t) ∨
    (16 < s.sp.toNat ∧ exec i s = .fault .stackPointerOutOfRange) := by
  have inside {len : Nat} (hr : Claims.raisesMemBounds s len = none) : len = 0 ∨ s.i.toNat + len - 1 ≤ 0xFFF :=
    (s.dataInRange_iff len).mp ((raisesMemBounds_eq_none_iff s len).mp hr)
  have checked {u : State} {len : Nat} (hr : Claims.raisesMemBounds s len = none) :
      (if s.dataInRange len = true then (.next u : Result) else raiseMemBounds s) = .next u :=
    if_pos ((raisesMemBounds_eq_none_iff s len).mp hr)
  cases i
  case call nnn =>
    have hne : s.sp.toNat ≠ 16 := by simpa [Claims.raises] using h
    refine (Nat.lt_or_gt_of_ne hne).imp (fun hlt => ?_) fun hgt => ⟨hgt, exec_call_above nnn hgt⟩
    exact ⟨_, exec_call_of_lt nnn (k := ⟨s.sp.toNat, hlt⟩) rfl, ⟨s.sp.toNat, hlt⟩, rfl, rfl⟩
  case ret =>
    have hne : s.sp.toNat ≠ 0 := by simpa [Claims.raises] using h
    refine (Nat.lt_or_ge 16 s.sp.toNat).symm.imp (fun hle => ?_) fun hgt => ⟨hgt, exec_ret_above hgt⟩
    have hk : s.sp.toNat = (⟨s.sp.toNat - 1, by omega⟩ : Fin 16).val + 1 :=
      (Nat.succ_pred_eq_of_ne_zero hne).symm
    exact ⟨_, exec_ret_of_succ hk, _, hk, rfl⟩
  case ldF x =>
    have hx : (s.reg x).toNat ≤ 15 := by simpa [Claims.raises] using h
    exact .inl ⟨_, exec_ldF_of_le hx, rfl⟩
  case skp x =>
    have hx : (s.reg x).toNat ≤ 15 := by simpa [Claims.raises] using h
    exact .inl ⟨_, exec_skp_of_key (k := ⟨_, Nat.lt_succ_of_le hx⟩) rfl, _, rfl, rfl⟩
  case sknp x =>
    have hx : (s.reg x).toNat ≤ 15 := by simpa [Claims.raises] using h
    exact .inl ⟨_, exec_sknp_of_key (k := ⟨_, Nat.lt_succ_of_le hx⟩) rfl, _, rfl, rfl⟩
  case ldVxK x =>
    rcases hk : s.lowestKey with _ | k
    · exact .inl ⟨_, exec_ldVxK_none x hk, .inr ⟨hk, rfl⟩⟩
    · exact .inl ⟨_, exec_ldVxK_some x hk, .inl ⟨k, hk, rfl⟩⟩
  case drw => exact .inl ⟨_, checked h, rfl⟩
  case ldB => exact .inl ⟨_, checked h, by have := inside h; omega, rfl⟩
  case stRegs => exact .inl ⟨_, checked h, by have := inside h; omega, rfl⟩
  case ldRegs => exact .inl ⟨_, checked h, by have := inside h; omega, rfl⟩
  all_goals exact .inl ⟨_, rfl, rfl⟩

/-- Only a call and a return with `sp` above 16 stop the model (log 7). -/
theorem exec_answers (i : Instr) {s : State} (h : s.sp.toNat ≤ 16) : ∃ t, exec i s = .next t := by
  rcases hr : Claims.raises i s with _ | ⟨c, n⟩
  · rcases exec_of_not_raises hr with ⟨t, ht, -⟩ | ⟨hs, -⟩
    · exact ⟨t, ht⟩
    · exact absurd hs (Nat.not_lt.mpr h)
  · exact ⟨_, exec_of_raises hr⟩

/-- An instruction whose row raises nothing had its effect where it answers a state. -/
theorem effect_of_not_raises {i : Instr} {s t : State} (h : Claims.raises i s = none) (ht : exec i s = .next t) :
    Effect i s t := by
  rcases exec_of_not_raises h with ⟨u, hu, he⟩ | ⟨-, hf⟩
  · rwa [Host.Outcome.next.inj (ht.symm.trans hu)]
  · rw [hf] at ht
    cases ht

/-- Settles O8: the row of the table decides between the raise and the effect, which keeps the record. -/
theorem faultsAreRaisedExactlyByTheTable : Obligations.FaultsAreRaisedExactlyByTheTable := by
  intro i s t ht
  split
  next c n h => exact Host.Outcome.next.inj (ht.symm.trans (exec_of_raises h))
  next h => exact effect_fault (effect_of_not_raises h ht)

/-- Settles O15: a halted machine and a fetch fault answer at once, and the handler of any word answers. -/
theorem stepAlwaysAnswersAState : Obligations.StepAlwaysAnswersAState := by
  intro s hsp
  by_cases hr : s.Running
  · by_cases hp : s.pc.toNat ≤ 0xFFE
    · obtain ⟨u, hu⟩ := exec_answers (decode s.fetchWord) (s := s.sampleKeys.latch) hsp
      rw [step_running hr hp, hu]
      by_cases hu : u.Running
      · exact ⟨_, endCycle_running hu _⟩
      · exact ⟨_, endCycle_halted hu _⟩
    · exact ⟨_, step_fetchBounds hr (by omega)⟩
  · exact ⟨s, step_halted hr⟩

end Sys2Proof.Machine

/-! The frame of every instruction (10_state.md R12, R28), and that no instruction reads the sound timer (R19). -/

namespace Sys2Proof.Machine

/-! ### The registers an effect leaves alone -/

/-- A register the instruction is not listed for keeps its value (R28). -/
theorem effect_reg {i : Instr} {s t : State} (h : Effect i s t) {y : Reg} (hy : ¬Claims.writesReg i y) :
    t.reg y = s.reg y := by
  cases i
  case ret | call => obtain ⟨k, -, rfl⟩ := h; rfl
  case skp | sknp => obtain ⟨k, -, rfl⟩ := h; simp
  case ldVxK x =>
    rcases h with ⟨k, -, rfl⟩ | ⟨-, rfl⟩
    · exact s.reg_setReg_of_ne (Ne.symm hy) _
    · rfl
  case ldB | stRegs => obtain ⟨-, rfl⟩ := h; rfl
  case ldRegs =>
    obtain ⟨-, rfl⟩ := h
    exact (s.reg_setRegsUpTo ..).trans (if_neg hy)
  case ldImm | addImm | ldReg | orReg | andReg | xorReg | ldVxDT =>
    rcases h with rfl
    exact s.reg_setReg_of_ne (Ne.symm hy) _
  case rnd =>
    rcases h with rfl
    exact s.consumeDraw.reg_setReg_of_ne (Ne.symm hy) _
  case addReg | subReg | shr | subnReg | shl =>
    rcases h with rfl
    obtain ⟨hx, hf⟩ := not_or.mp hy
    exact (s.reg_setResultAndFlag ..).trans ((if_neg (Ne.symm hf)).trans (if_neg (Ne.symm hx)))
  case drw =>
    rcases h with rfl
    exact (State.reg_setFlag ..).trans (if_neg (Ne.symm hy))
  case seImm | sneImm | seReg | sneReg =>
    rcases h with rfl
    exact s.reg_skipIf _ y
  all_goals
    rcases h with rfl
    rfl

/-- A raise leaves the registers alone (R203). -/
theorem raised_reg {s t : State} (h : Raised s t) (y : Reg) : t.reg y = s.reg y := by
  obtain ⟨c, n, -, -, rfl⟩ := h
  rfl

/-- A handler leaves the registers alone that its instruction is not listed for (R28). -/
theorem exec_reg {i : Instr} {s t : State} (h : exec i s = .next t) {y : Reg} (hy : ¬Claims.writesReg i y) :
    t.reg y = s.reg y :=
  (exec_next_cases h).elim (raised_reg · y) (effect_reg · hy)

/-- The instructions of R12's list leave a flag in `V[15]`. -/
theorem effect_flag {i : Instr} {s t : State} (h : Effect i s t) (hf : Claims.writesFlag i) :
    ∃ f, t.reg 15 = flagByte f := by
  cases i
  case addReg | subReg | shr | subnReg | shl =>
    rcases h with rfl
    exact ⟨_, State.reg_flag_setFlag ..⟩
  case drw =>
    rcases h with rfl
    exact ⟨_, State.reg_flag_setFlag ..⟩
  all_goals exact hf.elim

/-- Settles O36: a handler that leaves the machine running had its effect, and a flag is 0 or 1. -/
theorem onlyTheListedInstructionsWriteTheFlag : Obligations.OnlyTheListedInstructionsWriteTheFlag := by
  refine fun i s t h => ⟨fun hf hr => ?_, fun _ hy => exec_reg h hy⟩
  rcases exec_next_cases h with ⟨c, n, hc, -, rfl⟩ | he
  · exact absurd hr hc
  · obtain ⟨f, hv⟩ := effect_flag he hf
    exact hv ▸ flagByte_zero_or_one f

/-! ### The frame (R28) -/

/-- Memory outside the bytes stored to reads as before (R48). -/
theorem read_writeBytes_outside {s : State} (hm : s.mem.wf) {bs : List Byte} {a : Nat}
    (ha : a < s.dataAddr 0 ∨ s.dataAddr bs.length ≤ a) :
    Memory.read (Memory.writeBytes s.mem s.i.toNat bs) a = Memory.read s.mem a := by
  rw [Memory.read_writeBytes hm.1, if_neg]
  simp only [State.dataAddr] at ha
  omega

/-- Settles O55: a raise writes the record only, and an effect writes the parts its instruction is listed for. -/
theorem instructionsWriteOnlyWhatTheAccessTableLists :
    Obligations.InstructionsWriteOnlyWhatTheAccessTableLists := by
  refine fun i s t h => ⟨fun y => exec_reg h, ?_⟩
  rcases exec_next_cases h with ⟨c, n, -, -, rfl⟩ | he
  · cases i <;> simp
  cases i
  case ret | call => obtain ⟨k, -, rfl⟩ := he; simp
  case skp | sknp => obtain ⟨k, -, rfl⟩ := he; simp
  case ldVxK => rcases he with ⟨k, -, rfl⟩ | ⟨-, rfl⟩ <;> simp
  case ldB x =>
    obtain ⟨-, rfl⟩ := he
    have outside (hm : s.mem.wf) (a) := read_writeBytes_outside hm (bs := bcdDigits (s.reg x)) (a := a)
    exact ⟨rfl, rfl, rfl, rfl, rfl, rfl, outside, rfl, ⟨rfl, rfl⟩, rfl, rfl, rfl⟩
  case stRegs x =>
    obtain ⟨-, rfl⟩ := he
    have outside (hm : s.mem.wf) (a) := read_writeBytes_outside hm (bs := s.regsUpTo x) (a := a)
    rw [State.length_regsUpTo] at outside
    exact ⟨rfl, rfl, rfl, rfl, rfl, rfl, outside, rfl, ⟨rfl, rfl⟩, rfl, rfl, rfl⟩
  case ldRegs => obtain ⟨-, rfl⟩ := he; simp
  all_goals
    rcases he with rfl
    simp

/-! ### The sound timer (R19) -/

/-- An answer with `ST` changed where the instruction does not write it. -/
def answerWithST (i : Instr) (b : Byte) : Result → Result
  | .next t => .next (match i with | .ldSTVx _ => t | _ => { t with st := b })
  | .fault r => .fault r
  | .refused r => .refused r

/-- A check that does not read `ST` passes alike before and after the change. -/
theorem ite_answerWithST {i : Instr} {b : Byte} {c : Prop} [Decidable c] {t u t' u' : Result}
    (ht : t' = answerWithST i b t) (hu : u' = answerWithST i b u) :
    (if c then t' else u') = answerWithST i b (if c then t else u) := by
  rw [apply_ite (answerWithST i b), ht, hu]

/-- A skip does not read `ST`. -/
theorem skipIf_withST (s : State) (b : Byte) (c : Bool) :
    ({ s with st := b } : State).skipIf c = { s.skipIf c with st := b } := by
  cases c <;> rfl

/-- No check and no operand of a handler is `ST`. -/
theorem exec_withST (i : Instr) (s : State) (b : Byte) :
    exec i { s with st := b } = answerWithST i b (exec i s) := by
  cases i
  case ldF x => exact ite_answerWithST (c := 15 < (s.reg x).toNat) rfl rfl
  case drw x y n => exact ite_answerWithST (c := s.dataInRange n.toNat = true) rfl rfl
  case ldB x => exact ite_answerWithST (c := s.dataInRange 3 = true) rfl rfl
  case stRegs x => exact ite_answerWithST (c := s.dataInRange (x.val + 1) = true) rfl rfl
  case ldRegs x => exact ite_answerWithST (c := s.dataInRange (x.val + 1) = true) rfl rfl
  case call nnn =>
    exact ite_answerWithST (c := s.sp = 16) rfl (ite_answerWithST (c := s.sp.toNat < 16) rfl rfl)
  case ret =>
    refine ite_answerWithST (c := s.sp = 0) rfl ?_
    change (match s.stackEntry (s.sp.toNat - 1) with | some _ => _ | none => _) = _
    cases s.stackEntry (s.sp.toNat - 1) <;> rfl
  case skp x =>
    rcases Nat.lt_or_ge 15 (s.reg x).toNat with hx | hx
    · rw [exec_skp_above hx]
      exact exec_skp_above (s := { s with st := b }) hx
    · rw [exec_skp_of_key (k := ⟨(s.reg x).toNat, Nat.lt_succ_of_le hx⟩) rfl]
      exact (exec_skp_of_key (s := { s with st := b }) rfl).trans (congrArg _ (skipIf_withST s b _))
  case sknp x =>
    rcases Nat.lt_or_ge 15 (s.reg x).toNat with hx | hx
    · rw [exec_sknp_above hx]
      exact exec_sknp_above (s := { s with st := b }) hx
    · rw [exec_sknp_of_key (k := ⟨(s.reg x).toNat, Nat.lt_succ_of_le hx⟩) rfl]
      exact (exec_sknp_of_key (s := { s with st := b }) rfl).trans (congrArg _ (skipIf_withST s b _))
  case ldVxK x =>
    rcases hk : s.lowestKey with _ | k
    · rw [exec_ldVxK_none x hk]
      exact exec_ldVxK_none (s := { s with st := b }) x hk
    · rw [exec_ldVxK_some x hk]
      exact exec_ldVxK_some (s := { s with st := b }) x hk
  case seImm | sneImm | seReg | sneReg => exact congrArg _ (skipIf_withST s b _)
  all_goals rfl

/-- Settles O56: only `Fx18` writes `ST`. -/
theorem noInstructionReadsTheSoundTimer : Obligations.NoInstructionReadsTheSoundTimer := by
  intro i s b
  rw [exec_withST]
  cases exec i s <;> rfl

end Sys2Proof.Machine

/-! What a completed handler leaves of each part of the state, the three ends of a cycle (40_cycle_dispatch.md R80 to
R84, 60_exceptions.md R203), and the invariant (10_state.md section 7). -/

namespace Sys2Proof.Machine

/-! ### The parts of the state after an effect -/

/-- The advance of `pc` is undone by the `pc - 2` a raise records (R82, R203). -/
theorem advanced_pc_sub_two (p : Word) : p + 2 - 2 = p :=
  BitVec.add_sub_cancel p 2

/-- No handler writes the key snapshot or takes a waiting array (R28, log 3). -/
theorem exec_keys {i : Instr} {s t : State} (h : exec i s = .next t) : t.key = s.key ∧ t.keysIn = s.keysIn := by
  obtain ⟨-, -, -, -, -, -, -, -, -, -, -, hkey⟩ := instructionsWriteOnlyWhatTheAccessTableLists i s t h
  exact hkey

/-- Memory after an effect: the bytes stored from `I` on, all inside memory; none where nothing is stored (R46, R48). -/
theorem effect_mem {i : Instr} {s t : State} (h : Effect i s t) :
    ∃ bs, (bs = [] ∨ s.i.toNat + bs.length ≤ Config.memBytes) ∧
      t.mem = Memory.writeBytes s.mem s.i.toNat bs := by
  cases i
  case ldB x =>
    obtain ⟨hr, rfl⟩ := h
    exact ⟨bcdDigits (s.reg x), .inr (by rw [length_bcdDigits, Config.memBytes]; omega), rfl⟩
  case stRegs x =>
    obtain ⟨hr, rfl⟩ := h
    exact ⟨s.regsUpTo x, .inr (by rw [State.length_regsUpTo, Config.memBytes]; omega), rfl⟩
  all_goals refine ⟨[], .inl rfl, ?_⟩
  case ret | call | skp | sknp => obtain ⟨k, -, rfl⟩ := h; simp [Memory.writeBytes]
  case ldVxK => rcases h with ⟨k, -, rfl⟩ | ⟨-, rfl⟩ <;> simp [Memory.writeBytes]
  case ldRegs => obtain ⟨-, rfl⟩ := h; simp [Memory.writeBytes]
  all_goals
    rcases h with rfl
    simp [Memory.writeBytes]

/-- The stack after a handler's effect: only a return pops and only a call pushes (R16, R17, R28). -/
theorem exec_stack {i : Instr} {s t : State} (h : exec i s = .next t) (he : Effect i s t) :
    (t.stack = s.stack ∧ t.sp = s.sp) ∨
    (∃ k : Fin 16, s.sp.toNat = k.val + 1 ∧ t.stack = s.stack ∧ t.sp = s.sp - 1) ∨
    ∃ k : Fin 16, s.sp.toNat = k.val ∧ t.stack = s.stack.set k s.pc ∧ t.sp = s.sp + 1 := by
  obtain ⟨-, -, hstack, hsp, -⟩ := instructionsWriteOnlyWhatTheAccessTableLists i s t h
  cases i
  case ret =>
    obtain ⟨k, hk, rfl⟩ := he
    exact .inr (.inl ⟨k, hk, rfl, rfl⟩)
  case call nnn =>
    obtain ⟨k, hk, rfl⟩ := he
    exact .inr (.inr ⟨k, hk, rfl, rfl⟩)
  all_goals exact .inl ⟨hstack, hsp⟩

/-- `pc` after a skip (R108). -/
theorem skipIf_pc_cases (s : State) (c : Bool) : (s.skipIf c).pc = s.pc ∨ (s.skipIf c).pc = s.pc + 2 := by
  cases c
  · exact .inl rfl
  · exact .inr rfl

/-- `pc` after a handler's effect: as the handler found it, one skip further on, back at the waiting `Fx0A`, or a target
(R100 to R103, R108, R185). -/
theorem exec_pc {i : Instr} {s t : State} (h : exec i s = .next t) (he : Effect i s t) :
    t.pc = s.pc ∨ t.pc = s.pc + 2 ∨ t.pc = s.pc - 2 ∨ (∃ nnn, t.pc = address nnn) ∨
    (∃ b nnn, t.pc = wordOfByte b + address nnn) ∨ ∃ k : Fin 16, t.pc = s.stack[k] := by
  obtain ⟨-, -, -, -, -, -, -, -, hpc, -⟩ := instructionsWriteOnlyWhatTheAccessTableLists i s t h
  cases i
  case jp nnn => exact .inr (.inr (.inr (.inl ⟨nnn, congrArg State.pc he⟩)))
  case jpV0 nnn => exact .inr (.inr (.inr (.inr (.inl ⟨_, nnn, congrArg State.pc he⟩))))
  case call nnn =>
    obtain ⟨k, -, rfl⟩ := he
    exact .inr (.inr (.inr (.inl ⟨nnn, rfl⟩)))
  case ret =>
    obtain ⟨k, -, rfl⟩ := he
    exact .inr (.inr (.inr (.inr (.inr ⟨k, rfl⟩))))
  case ldVxK =>
    rcases he with ⟨k, -, rfl⟩ | ⟨-, rfl⟩
    · exact .inl rfl
    · exact .inr (.inr (.inl rfl))
  case seImm | sneImm | seReg | sneReg =>
    rcases he with rfl
    exact (skipIf_pc_cases s _).imp_right .inl
  case skp | sknp =>
    obtain ⟨k, -, rfl⟩ := he
    exact (skipIf_pc_cases s _).imp_right .inl
  all_goals exact .inl hpc

/-! ### The three ends of a cycle -/

/-- How a cycle that answers a state ends: a halted machine stays, a fault keeps only its record, and otherwise the
handler has its effect on the sampled and latched state and the timers count (R80 to R84, R203, R204). -/
theorem step_ends {s t : State} (h : step s = .next t) :
    (s.Halted ∧ t = s) ∨
    (s.Running ∧ ∃ c n, c ≠ .none ∧
      t = { s.sampleKeys with fault := ⟨c, s.pc, if c = .fetchBounds then 0 else s.fetchWord, n⟩ }) ∨
    (s.Running ∧ s.pc.toNat ≤ 0xFFE ∧ ∃ u,
      exec (decode s.fetchWord) s.sampleKeys.latch = .next u ∧ Effect (decode s.fetchWord) s.sampleKeys.latch u ∧
      t = u.tickTimers) := by
  rcases step_next_cases h with h | ⟨hs, -, rfl⟩ | ⟨hs, hp, u, hu, hend⟩
  · exact .inl h
  · exact .inr (.inl ⟨hs, .fetchBounds, s.pc, by decide, rfl⟩)
  · rcases exec_next_cases hu with ⟨c, n, hc, hf, rfl⟩ | he
    · rcases hend with ⟨hr, -⟩ | ⟨-, rfl⟩
      · exact absurd hr hc
      · refine .inr (.inl ⟨hs, c, n, hc, ?_⟩)
        rw [if_neg hf]
        simp [State.fetchWord]
    · have hr : u.Running := (congrArg FaultRecord.cause (effect_fault he)).trans hs
      rcases hend with ⟨-, rfl⟩ | ⟨hh, -⟩
      · exact .inr (.inr ⟨hs, hp, u, hu, he, rfl⟩)
      · exact absurd hr hh

/-! ### The invariant (log 23) -/

/-- Every store is inside memory, so the list stays canonical (R46, log 21). -/
theorem effect_keeps_memory {i : Instr} {s t : State} (h : Effect i s t) (hm : s.mem.wf) : t.mem.wf := by
  obtain ⟨bs, hbs, ht⟩ := effect_mem h
  exact ht ▸ Memory.writeBytes_wf hm hbs

/-- A return needs `sp` above 0 and a call `sp` below 16, so `sp` stays at most 16 (R17, R27(b)). -/
theorem exec_keeps_stackPointer {i : Instr} {s t : State} (h : exec i s = .next t) (he : Effect i s t)
    (hs : s.sp.toNat ≤ 16) :
    t.sp.toNat ≤ 16 := by
  rcases exec_stack h he with ⟨-, ht⟩ | ⟨k, hk, -, ht⟩ | ⟨k, hk, -, ht⟩
  · exact ht ▸ hs
  · rw [ht]
    bv_omega
  · have := k.isLt
    rw [ht]
    bv_omega

/-- The one value ever pushed is the advanced `pc` (R100, R102). -/
theorem exec_keeps_stackEntries {i : Instr} {s t : State} (h : exec i s = .next t) (he : Effect i s t)
    (hp : s.pc.toNat ≤ 0x1000) (hs : ∀ k : Fin 16, s.stack[k].toNat ≤ 0x1000) (k : Fin 16) :
    t.stack[k].toNat ≤ 0x1000 := by
  rcases exec_stack h he with ⟨ht, -⟩ | ⟨-, -, ht, -⟩ | ⟨j, -, ht, -⟩
  · exact ht ▸ hs k
  · exact ht ▸ hs k
  · rw [ht, Fin.getElem_fin, Vector.getElem_set]
    split
    · exact hp
    · exact hs k

/-- The largest `pc` is that of `Bnnn`, 0xFF + 0xFFF (R14, R103). -/
theorem exec_bounds_pc {i : Instr} {s t : State} (h : exec i s = .next t) (he : Effect i s t) (h2 : 2 ≤ s.pc.toNat)
    (hp : s.pc.toNat ≤ 0x1000) (hs : ∀ k : Fin 16, s.stack[k].toNat ≤ 0x1000) : t.pc.toNat ≤ 0x10FE := by
  rcases exec_pc h he with ht | ht | ht | ⟨nnn, ht⟩ | ⟨b, nnn, ht⟩ | ⟨k, ht⟩ <;> rw [ht]
  · omega
  · bv_omega
  · bv_omega
  · rw [toNat_address]
    omega
  · rw [BitVec.toNat_add, toNat_address, toNat_wordOfByte]
    omega
  · exact (hs k).trans (by decide)

/-- The advance of a `pc` inside memory does not wrap (R82). -/
theorem toNat_advanced_pc {p : Word} (h : p.toNat ≤ 0xFFE) : (p + 2).toNat = p.toNat + 2 := by
  bv_omega

/-- Settles O14: a halted machine stays, a fault keeps all but the record, and an effect keeps each bound, given that
the handler finds `pc` advanced from at most 0xFFE. -/
theorem stepKeepsTheInvariant : Obligations.StepKeepsTheInvariant := by
  intro s t hinv h
  obtain ⟨hm, hsp, hst, hpc, hf⟩ := hinv
  rcases step_ends h with ⟨-, rfl⟩ | ⟨-, c, n, hc, rfl⟩ | ⟨hr, hp, u, hu, he, rfl⟩
  · exact ⟨hm, hsp, hst, hpc, hf⟩
  · exact ⟨hm, hsp, hst, hpc, by rw [if_neg hc]; rfl⟩
  · have hadv : s.sampleKeys.latch.pc.toNat = s.pc.toNat + 2 := toNat_advanced_pc hp
    have hfault : u.fault = s.sampleKeys.latch.fault := effect_fault he
    have hmem := effect_keeps_memory he hm
    have hptr := exec_keeps_stackPointer hu he hsp
    have hent := exec_keeps_stackEntries hu he (by omega) hst
    have htgt := exec_bounds_pc hu he (by omega) (by omega) hst
    exact {
      memory := hmem
      stackPointer := hptr
      stackEntries := hent
      programCounter := htgt
      faultRecord := by
        rw [if_pos hr] at hf
        simp [hfault, hf, FaultRecord.empty] }

end Sys2Proof.Machine

/-! Reset, the ports and whole cycles (10_state.md R29, 40_cycle_dispatch.md R80 to R87, 60_exceptions.md R203,
R204), and that the memory list is determined by its reads (log 21). -/

namespace Sys2Proof.Machine

/-! ### Reset and the ports -/

/-- Settles O13: each bound is evaluated. -/
theorem resetMeetsTheInvariant : Obligations.ResetMeetsTheInvariant where
  memory := by decide
  stackPointer := by decide
  stackEntries := by decide
  programCounter := by decide
  faultRecord := by decide

/-- Above the font memory reads 0 after reset (R25, R29). -/
theorem resetByte_above_font {a : Nat} (h : 0x0A0 ≤ a) : Config.resetByte a = 0 := by
  have hlen : Config.font.length ≤ a - Config.fontBase := by
    rw [show Config.font.length = 80 from rfl, Config.fontBase]
    omega
  rw [Config.resetByte, if_neg (by rw [Config.fontBase]; omega), List.getD_eq_default _ _ hlen]

/-- Settles O1: the fields are those of the reset state; the glyphs are evaluated; outside the font memory reads 0. -/
theorem resetLeavesTheTableOfResetValues : Obligations.ResetLeavesTheTableOfResetValues := by
  refine ⟨fun _ => rfl, rfl, rfl, by decide, rfl, by decide, rfl, rfl,
    (by decide : ∀ k : Fin 16, State.reset.key[k] = false), Screen.at_dark, rfl, rfl, by decide, fun a _ h => ?_⟩
  rcases h with h | h
  · exact if_pos h
  · exact resetByte_above_font h

/-- Settles O11: the image is at most the room above 0x200, so the stores keep the canonical form and read back. -/
theorem romLoadPlacesTheImage : Obligations.RomLoadPlacesTheImage := by
  intro rom s hm
  refine ⟨fun h => ⟨_, if_pos h, ?_, fun k hk => ?_, fun a ha => ?_⟩, fun h => if_neg (Nat.not_le.mpr h)⟩
  · exact Memory.writeBytes_wf hm (.inr (by rw [Config.programBase, Config.memBytes]; omega))
  · rw [Memory.read_writeBytes hm.1, if_pos (by rw [Config.programBase]; omega), Config.programBase,
      Nat.add_sub_cancel_left, List.getD_eq_getElem _ _ hk, List.getElem?_eq_getElem hk]
  · rw [Memory.read_writeBytes hm.1, if_neg (by rw [Config.programBase]; omega)]

/-- Settles O12: word `k` shows the pixel of column `k % 64` and row `k / 64`. -/
theorem displayBufferIsRowMajor : Obligations.DisplayBufferIsRowMajor := by
  refine fun s => ⟨List.length_ofFn, rfl, fun px py => ?_⟩
  have hk : py.val * 64 + px.val < 2048 := by omega
  have hx : (⟨(py.val * 64 + px.val) % 64, by omega⟩ : Fin 64) = px := Fin.ext (by dsimp only; omega)
  have hy : (⟨(py.val * 64 + px.val) / 64, by omega⟩ : Fin 32) = py := Fin.ext (by dsimp only; omega)
  rw [displayBuffer, List.getElem?_ofFn, dif_pos hk]
  simp only [displayWord, hx, hy, pixelWord]

/-! ### The memory list (log 21) -/

/-- A listed cell shows against any list of higher addresses, which reads as reset at its address. -/
theorem Memory.read_cons_ne {c : Host.Cell} {m m' : Memory} (hc : Memory.wf (c :: m)) (h : ∀ d ∈ m', c.1 < d.1) :
    Memory.read (c :: m) c.1 ≠ Memory.read m' c.1 := by
  rw [Memory.read_eq_resetByte fun d hd => Nat.ne_of_gt (h d hd), Memory.read, if_pos rfl]
  exact (hc.2 c (List.mem_cons_self ..)).2

/-- The list below the first cell of a canonical list. -/
theorem Memory.wf_tail {c : Host.Cell} {m : Memory} (h : Memory.wf (c :: m)) :
    (∀ d ∈ m, c.1 < d.1) ∧ Memory.wf m := by
  obtain ⟨hlt, hm⟩ := List.pairwise_cons.mp h.1
  exact ⟨hlt, hm, fun d hd => h.2 d (List.mem_cons_of_mem _ hd)⟩

/-- Under an equal first cell that is below both, lists read alike if the whole lists do. -/
theorem Memory.read_tail_eq {c : Host.Cell} {m m' : Memory} (hm : ∀ d ∈ m, c.1 < d.1)
    (hm' : ∀ d ∈ m', c.1 < d.1)
    (h : ∀ a, Memory.read (c :: m) a = Memory.read (c :: m') a) (a : Nat) : Memory.read m a = Memory.read m' a := by
  by_cases ha : c.1 = a
  · rw [Memory.read_eq_resetByte fun d hd => ha ▸ Nat.ne_of_gt (hm d hd),
      Memory.read_eq_resetByte fun d hd => ha ▸ Nat.ne_of_gt (hm' d hd)]
  · simpa [Memory.read, ha] using h a

/-- Settles O17: the first cells are the same, since the lower of two would show in the reads; then the tails are. -/
theorem memoryIsDeterminedByItsReads : Obligations.MemoryIsDeterminedByItsReads := by
  intro m
  induction m with
  | nil =>
    rintro (_ | ⟨c', m'⟩) - hm' h
    · rfl
    · exact absurd (h c'.1).symm (Memory.read_cons_ne hm' (by simp))
  | cons c m ih =>
    rintro (_ | ⟨c', m'⟩) hm hm' h
    · exact absurd (h c.1) (Memory.read_cons_ne hm (by simp))
    · obtain ⟨hlt, htail⟩ := Memory.wf_tail hm
      obtain ⟨hlt', htail'⟩ := Memory.wf_tail hm'
      have head : c.1 = c'.1 := by
        rcases Nat.lt_trichotomy c.1 c'.1 with hc | hc | hc
        · have above : ∀ d ∈ c' :: m', c.1 < d.1 :=
            List.forall_mem_cons.mpr ⟨hc, fun d hd => hc.trans (hlt' d hd)⟩
          exact absurd (h c.1) (Memory.read_cons_ne hm above)
        · exact hc
        · have above : ∀ d ∈ c :: m, c'.1 < d.1 :=
            List.forall_mem_cons.mpr ⟨hc, fun d hd => hc.trans (hlt d hd)⟩
          exact absurd (h c'.1).symm (Memory.read_cons_ne hm' above)
      have value : c.2 = c'.2 := by simpa [Memory.read, head] using h c.1
      obtain rfl : c = c' := Prod.ext head value
      rw [ih m' htail htail' (Memory.read_tail_eq hlt hlt' h)]

/-! ### One cycle -/

/-- Settles O5: each cycle of a halted machine answers the state itself. -/
theorem haltedMachineNeverChanges : Obligations.HaltedMachineNeverChanges := by
  intro s n h
  induction n with
  | zero => rfl
  | succ n ih => rw [run_succ_of_step (step_halted h), ih]

/-- Settles O6: the fetch raises. -/
theorem fetchAboveMemoryRaisesFetchBounds : Obligations.FetchAboveMemoryRaisesFetchBounds :=
  fun _ hr hp => step_fetchBounds hr hp

/-- Settles O2: the end of the cycle case by case. -/
theorem stepRunsTheDecodedInstruction : Obligations.StepRunsTheDecodedInstruction := by
  rintro s i hr hp rfl found
  have hstep : step s = endCycle s.sampleKeys (exec (decode (Claims.wordAtPc s)) found) := step_running hr hp
  rw [hstep]
  cases exec (decode (Claims.wordAtPc s)) found <;> rfl

/-- Settles O7: of the three ends of a cycle only the fault halts a running machine. -/
theorem faultingCycleKeepsOnlyTheRecord : Obligations.FaultingCycleKeepsOnlyTheRecord := by
  intro s t hr h ht
  rcases step_ends h with ⟨hs, -⟩ | ⟨-, c, n, hc, rfl⟩ | ⟨-, -, u, -, he, rfl⟩
  · exact absurd hr hs
  · exact ⟨n, rfl⟩
  · exact absurd ((congrArg FaultRecord.cause (effect_fault he)).trans hr) ht

/-- Settles O10: the snapshot is taken first, and neither an effect nor the end of the cycle changes it. -/
theorem keypadIsSampledOncePerCycle : Obligations.KeypadIsSampledOncePerCycle := by
  intro s t hr h
  rcases step_ends h with ⟨hs, -⟩ | ⟨-, c, n, -, rfl⟩ | ⟨-, -, u, hu, -, rfl⟩
  · exact absurd hr hs
  · exact ⟨rfl, rfl⟩
  · exact exec_keys hu

/-- Settles O9: the end of a completed cycle counts down the timers the handler left. -/
theorem timersCountDownAfterTheHandler : Obligations.TimersCountDownAfterTheHandler := by
  intro s t hr h
  rcases step_ends h with ⟨hs, -⟩ | ⟨-, c, n, hc, rfl⟩ | ⟨-, -, u, hu, he, rfl⟩
  · exact absurd hr hs
  · rw [if_pos hc]
    exact ⟨rfl, rfl⟩
  · have hrun : ¬u.tickTimers.Halted := not_not.mpr ((congrArg FaultRecord.cause (effect_fault he)).trans hr)
    obtain ⟨-, -, -, -, hdt, hst, -⟩ := instructionsWriteOnlyWhatTheAccessTableLists _ _ u hu
    rw [if_neg hrun, State.tickTimers_dt, State.tickTimers_st, toNat_countDown, toNat_countDown]
    generalize decode s.fetchWord = i at he hdt hst ⊢
    cases i
    case ldDTVx => exact ⟨congrArg (fun t => t.dt.toNat - 1) he, congrArg (fun b => b.toNat - 1) hst⟩
    case ldSTVx => exact ⟨congrArg (fun b => b.toNat - 1) hdt, congrArg (fun t => t.st.toNat - 1) he⟩
    all_goals exact ⟨congrArg (fun b => b.toNat - 1) hdt, congrArg (fun b => b.toNat - 1) hst⟩

end Sys2Proof.Machine

/-! Cycles that go nowhere or one instruction on (40_cycle_dispatch.md R82, R86, 45_keypad_timers.md R185,
70_reset_and_hazards.md R234). -/

namespace Sys2Proof.Machine

/-- A cycle whose handler answers a running state (R80, R84). -/
theorem step_of_exec {s u : State} (hr : s.Running) (hp : s.pc.toNat ≤ 0xFFE)
    (h : exec (decode s.fetchWord) s.sampleKeys.latch = .next u) (hu : u.Running) : step s = .next u.tickTimers := by
  rw [step_running hr hp, h, endCycle_running hu]

/-- Settles O54: the word decodes to its no-op, whose handler answers the latched state. -/
theorem nopOnlyAdvances : Obligations.NopOnlyAdvances := by
  refine ⟨fun _ _ => rfl, fun s hr hp hw => ?_⟩
  have hd : decode s.fetchWord = .nop s.fetchWord := (decode_nop_iff _ _).mpr ⟨hw, rfl⟩
  exact step_of_exec (u := s.sampleKeys.latch) hr hp (hd ▸ rfl) hr

/-- Settles O4: the handler found `pc` advanced, and what it left there is what the cycle leaves. -/
theorem pcAdvancesBeforeTheHandler : Obligations.PcAdvancesBeforeTheHandler := by
  intro s t hr hp h ht
  rcases step_ends h with ⟨hs, -⟩ | ⟨-, c, n, hc, rfl⟩ | ⟨-, -, u, hu, he, rfl⟩
  · exact absurd hr hs
  · exact absurd ht hc
  obtain ⟨-, -, -, -, -, -, -, -, hpc, -, -, -, -⟩ := instructionsWriteOnlyWhatTheAccessTableLists _ _ u hu
  have skip := skipIf_pc_cases s.sampleKeys.latch
  generalize decode s.fetchWord = i at hu he hpc ⊢
  cases i
  case jp | jpV0 | ret => exact ⟨u, hu, rfl⟩
  case call =>
    obtain ⟨k, hk, rfl⟩ := he
    have hk : s.sp.toNat = k.val := hk
    simp [hk]
  case seImm | sneImm | seReg | sneReg =>
    rcases he with rfl
    exact skip _
  case skp | sknp =>
    obtain ⟨k, -, rfl⟩ := he
    exact skip _
  case ldVxK x =>
    rcases s.sampleKeys.latch.lowestKey_cases with ⟨k, hk, hdown⟩ | ⟨hk, hup⟩
    · rw [exec_ldVxK_some x hk] at hu
      cases hu
      exact ⟨fun hno => absurd ((hno k).symm.trans hdown) (by decide), fun _ => rfl⟩
    · rw [exec_ldVxK_none x hk] at hu
      cases hu
      exact ⟨fun _ => advanced_pc_sub_two s.pc, fun hno => absurd hup hno⟩
  all_goals exact hpc

/-! ### Cycles that stay at `pc` -/

/-- The state after a cycle that ends where it began: the keys sampled, the word latched, the timers counted. -/
def State.stalled (s : State) : State :=
  { s with
    key := s.presentedKeys
    keysIn := s.keysIn.tail
    opcode := s.fetchWord
    dt := countDown s.dt
    st := countDown s.st }

/-- As many cycles as are known to stay at `pc`. -/
theorem run_stalled {n : Nat} {s : State}
    (h : ∀ k < n, step (State.stalled^[k] s) = .next (State.stalled^[k] s).stalled) :
    Host.Core.run core n s = .next (State.stalled^[n] s) := by
  induction n generalizing s with
  | zero => rfl
  | succ n ih =>
    have first : step s = .next s.stalled := h 0 (Nat.succ_pos n)
    rw [run_succ_of_step first]
    exact ih fun k hk => h (k + 1) (Nat.succ_lt_succ hk)

/-- What `n` cycles that stay at `pc` leave. -/
theorem iterate_stalled (n : Nat) (s : State) :
    (State.stalled^[n] s).dt.toNat = s.dt.toNat - n ∧ (State.stalled^[n] s).st.toNat = s.st.toNat - n ∧
    State.stalled^[n] s = { s with
      dt := (State.stalled^[n] s).dt, st := (State.stalled^[n] s).st, key := (State.stalled^[n] s).key,
      keysIn := s.keysIn.drop n, opcode := if n = 0 then s.opcode else s.fetchWord } := by
  induction n with
  | zero => exact ⟨rfl, rfl, rfl⟩
  | succ n ih =>
    obtain ⟨hdt, hst, hs⟩ := ih
    rw [Function.iterate_succ_apply']
    generalize State.stalled^[n] s = t at *
    refine ⟨?_, ?_, ?_⟩
    · simp only [State.stalled, toNat_countDown, hdt]
      omega
    · simp only [State.stalled, toNat_countDown, hst]
      omega
    · rw [if_neg (Nat.succ_ne_zero n)]
      have hword : t.fetchWord = s.fetchWord := by rw [hs]; rfl
      have hkeys : t.keysIn.tail = s.keysIn.drop (n + 1) := by rw [hs, List.tail_drop]
      rw [State.stalled, hword, hkeys]
      rw [hs]

/-- A jump to itself is such a cycle (R101, R234(3)). -/
theorem step_parked {s : State} (h : s.Parked) : step s = .next s.stalled := by
  obtain ⟨hr, hp, nnn, hd, hself⟩ := h
  have hexec : exec (decode s.fetchWord) s.sampleKeys.latch = .next { s.sampleKeys.latch with pc := s.pc } := by
    rw [hd, ← hself]
    rfl
  exact step_of_exec hr (of_decide_eq_true hp) hexec hr

/-- Being parked speaks of `pc`, memory and the fault record only. -/
theorem parked_iterate_stalled {s : State} (h : s.Parked) (n : Nat) : (State.stalled^[n] s).Parked := by
  induction n with
  | zero => exact h
  | succ n ih => rwa [Function.iterate_succ_apply']

/-- Settles O16: each cycle is a jump to itself. -/
theorem parkedMachineOnlyCountsDown : Obligations.ParkedMachineOnlyCountsDown := by
  intro n s h
  obtain ⟨hdt, hst, hs⟩ := iterate_stalled n s
  have hrun := run_stalled (n := n) fun k _ => step_parked (parked_iterate_stalled h k)
  refine ⟨_, hrun, parked_iterate_stalled h n, ?_, hdt, hst⟩
  have hop : (State.stalled^[n] s).opcode = if n = 0 then s.opcode else s.fetchWord := congrArg State.opcode hs
  rw [hop]
  exact hs

/-- A key wait that sees no key is such a cycle (R185(a)). -/
theorem step_waiting {s : State} {x : Reg} (hr : s.Running) (hp : s.pc.toNat ≤ 0xFFE)
    (hd : decode s.fetchWord = .ldVxK x) (hk : Claims.noKey s.presentedKeys) : step s = .next s.stalled := by
  have hexec : exec (decode s.fetchWord) s.sampleKeys.latch = .next { s.sampleKeys.latch with pc := s.pc } := by
    rw [hd, exec_ldVxK_none x (State.lowestKey_none s.sampleKeys.latch hk), State.latch_pc, advanced_pc_sub_two]
    rfl
  exact step_of_exec hr hp hexec hr

/-- No key shows in the array a cycle takes, if none shows in the waiting arrays and, where none waits, in the last
snapshot (R87). -/
theorem noKey_presentedKeys {s : State} {n : Nat} (hn : 0 < n) (hlast : s.keysIn = [] → Claims.noKey s.key)
    (hin : ∀ keys ∈ s.keysIn.take n, Claims.noKey keys) : Claims.noKey s.presentedKeys := by
  unfold State.presentedKeys
  rcases hk : s.keysIn with _ | ⟨keys, rest⟩
  · exact hlast hk
  · obtain ⟨m, rfl⟩ : ∃ m, n = m + 1 := ⟨n - 1, by omega⟩
    exact hin keys (by simp [hk])

/-- Cycles at a key wait stay there for as long as they see no key: the hypotheses hold again after each. -/
theorem steps_waiting {n : Nat} {s : State} {x : Reg} (hr : s.Running) (hp : s.pc.toNat ≤ 0xFFE)
    (hd : decode s.fetchWord = .ldVxK x) (hlast : s.keysIn = [] → Claims.noKey s.key)
    (hin : ∀ keys ∈ s.keysIn.take n, Claims.noKey keys) :
    ∀ k < n, step (State.stalled^[k] s) = .next (State.stalled^[k] s).stalled := by
  induction n generalizing s with
  | zero => exact fun k hk => absurd hk (Nat.not_lt_zero k)
  | succ n ih =>
    have hnow := noKey_presentedKeys (Nat.succ_pos n) hlast hin
    have hrest : ∀ keys ∈ s.keysIn.tail.take n, Claims.noKey keys := by
      intro keys hk
      refine hin keys ?_
      rw [← List.drop_one, List.take_drop, Nat.add_comm] at hk
      exact List.mem_of_mem_drop hk
    rintro (_ | k) hk
    · exact step_waiting hr hp hd hnow
    · exact ih (s := s.stalled) hr hp hd (fun _ => hnow) hrest k (Nat.lt_of_succ_lt_succ hk)

/-- Settles O53: each cycle is a key wait that sees no key. -/
theorem keyWaitHoldsThePcWhileNoKeyIsPressed : Obligations.KeyWaitHoldsThePcWhileNoKeyIsPressed := by
  intro n s x hr hp hd hlast hin
  obtain ⟨hdt, hst, hs⟩ := iterate_stalled n s
  exact ⟨_, run_stalled (steps_waiting hr hp hd hlast hin), hdt, hst, hs⟩

end Sys2Proof.Machine

/-! Memory accesses through `I` (43_index_memory.md R153 to R156) and the sprite draw (44_display.md R171). -/

namespace Sys2Proof.Machine

/-! ### Loads and stores through `I` -/

/-- A decimal store inside memory (R153). -/
theorem exec_ldB_of_le (x : Reg) {s : State} (h : s.i.toNat + 2 ≤ 0xFFF) :
    exec (.ldB x) s = .next { s with mem := Memory.writeBytes s.mem (s.dataAddr 0) (bcdDigits (s.reg x)) } :=
  if_pos ((s.dataInRange_iff 3).mpr (.inr h))

/-- A block store inside memory (R154). -/
theorem exec_stRegs_of_le {x : Reg} {s : State} (h : s.i.toNat + x.val ≤ 0xFFF) :
    exec (.stRegs x) s = .next { s with mem := Memory.writeBytes s.mem (s.dataAddr 0) (s.regsUpTo x) } :=
  if_pos ((s.dataInRange_iff (x.val + 1)).mpr (.inr h))

/-- A block load inside memory (R155). -/
theorem exec_ldRegs_of_le {x : Reg} {s : State} (h : s.i.toNat + x.val ≤ 0xFFF) :
    exec (.ldRegs x) s = .next (s.setRegsUpTo x fun k => Memory.read s.mem (s.dataAddr k)) :=
  if_pos ((s.dataInRange_iff (x.val + 1)).mpr (.inr h))

/-- Byte `k` of the bytes stored from `I` on reads back at `I + k` (R43, R50). -/
theorem read_writeBytes_dataAddr {s : State} (hm : s.mem.wf) {bs : List Byte} {k : Nat} (hk : k < bs.length) :
    Memory.read (Memory.writeBytes s.mem (s.dataAddr 0) bs) (s.dataAddr k) = bs.getD k 0 := by
  rw [Memory.read_writeBytes hm.1, if_pos ⟨Nat.add_le_add_left (Nat.zero_le k) _, Nat.add_lt_add_left hk _⟩]
  simp only [State.dataAddr, Nat.add_zero, Nat.add_sub_cancel_left]

/-- Settles O41: the three digits read back, and the rest of memory is outside the store. -/
theorem decimalDigitsAreStored : Obligations.DecimalDigitsAreStored := by
  intro x s hm h
  obtain ⟨h0, h1, h2⟩ := bcdDigits_spec (s.reg x)
  have digit {k : Nat} (hk : k < 3) := read_writeBytes_dataAddr hm (bs := bcdDigits (s.reg x)) hk
  refine ⟨_, exec_ldB_of_le x h, ?_, ?_, ?_, fun a ha0 ha1 ha2 => read_writeBytes_outside hm ?_⟩
  · rw [digit (by decide), h0]
  · rw [digit (by decide), h1]
  · rw [digit (by decide), h2]
  · simp only [State.dataAddr, length_bcdDigits] at *
    omega

/-- The registers a block store moved read back by index (R154). -/
theorem read_stored_reg {s : State} (hm : s.mem.wf) {x k : Reg} (hk : k.val ≤ x.val) :
    Memory.read (Memory.writeBytes s.mem (s.dataAddr 0) (s.regsUpTo x)) (s.dataAddr k.val) = s.reg k := by
  rw [read_writeBytes_dataAddr hm (by rw [State.length_regsUpTo]; omega), State.getD_regsUpTo _ _ _ hk]

/-- Settles O42: the registers read back, and the rest of memory is outside the store. -/
theorem blockStoreWritesTheRegisters : Obligations.BlockStoreWritesTheRegisters := by
  intro x s hm h
  refine ⟨_, exec_stRegs_of_le h, fun k hk => read_stored_reg hm hk, fun a ha => read_writeBytes_outside hm ?_⟩
  rw [State.length_regsUpTo]
  exact ha.imp_right Nat.succ_le_of_lt

/-- Settles O43: a register after the load, up to `x` and above. -/
theorem blockLoadReadsTheRegisters : Obligations.BlockLoadReadsTheRegisters := by
  intro x s h
  refine ⟨_, exec_ldRegs_of_le h, rfl, fun k hk => ?_, fun k hk => ?_⟩
  · rw [State.reg_setRegsUpTo, if_pos hk]
  · rw [State.reg_setRegsUpTo, if_neg (Nat.not_le.mpr hk)]

/-- Settles O45: the load reads what the store wrote, since `I` and `x` are the same. -/
theorem blockLoadAfterStoreRestoresRegisters : Obligations.BlockLoadAfterStoreRestoresRegisters := by
  intro x s v hm h
  refine ⟨_, _, exec_stRegs_of_le h, exec_ldRegs_of_le h, fun k => ?_⟩
  rw [State.reg_setRegsUpTo]
  split
  next hk => exact read_stored_reg hm hk
  next hk => rfl

/-! ### The draw -/

/-- The sprite bits of a draw from the state `s` (R171). -/
abbrev State.spriteBits (s : State) (x y : Reg) (n : Nibble) : Fin 64 → Fin 32 → Bool :=
  spriteBit (Memory.readBytes s.mem (s.dataAddr 0) n.toNat) ((s.reg x).toNat % 64) ((s.reg y).toNat % 32)

/-- A draw inside memory (R171). -/
theorem exec_drw_of_le {x y : Reg} {n : Nibble} {s : State} (h : n = 0 ∨ s.i.toNat + n.toNat - 1 ≤ 0xFFF) :
    exec (.drw x y n) s = .next (State.setFlag { s with screen := (s.sprite x y n).1 } (s.sprite x y n).2) :=
  if_pos ((s.dataInRange_iff n.toNat).mpr (h.imp_left (congrArg BitVec.toNat)))

/-- The pixels after a draw (R171). -/
theorem at_sprite (s : State) (x y : Reg) (n : Nibble) (px : Fin 64) (py : Fin 32) :
    (s.sprite x y n).1.at px py = (s.screen.at px py ^^ s.spriteBits x y n px py) := by
  refine (drawRows_spec _ _ _ 0 (s.screen, false) ?_).1 px py
  rw [Memory.length_readBytes]
  omega

/-- The flag of a draw (R171). -/
theorem sprite_flag_iff (s : State) (x y : Reg) (n : Nibble) :
    (s.sprite x y n).2 = true ↔ ∃ px py, s.spriteBits x y n px py = true ∧ s.screen.at px py = true := by
  refine (drawRows_spec _ _ _ 0 (s.screen, false) ?_).2.trans (by simp)
  rw [Memory.length_readBytes]
  omega

/-- Settles O47: the closed form of the sprite loops. -/
theorem drawXorsTheSpriteOntoTheScreen : Obligations.DrawXorsTheSpriteOntoTheScreen := fun x y n s h =>
  ⟨(s.sprite x y n).1, flagByte (s.sprite x y n).2, exec_drw_of_le h, at_sprite s x y n, flagByte_zero_or_one _,
    (flagByte_eq_one_iff _).trans (sprite_flag_iff s x y n)⟩

/-- Settles O49: on a dark screen every pixel becomes its sprite bit, and no bit meets a pixel that is on. -/
theorem drawAfterClearShowsTheSprite : Obligations.DrawAfterClearShowsTheSprite := by
  intro x y n s h
  let c : State := { s with screen := Screen.dark }
  have hflag : (c.sprite x y n).2 = false := by
    rw [← Bool.not_eq_true, sprite_flag_iff]
    simp [c]
  refine ⟨c, _, rfl, exec_drw_of_le (s := c) h, ?_, fun px py => ?_⟩
  · rw [State.reg_flag_setFlag, hflag]
    rfl
  · have := at_sprite c x y n px py
    rwa [Screen.at_dark, Bool.false_xor] at this

/-- A byte other than 0 has a bit of 1. -/
theorem exists_getLsbD_of_ne_zero {b : Byte} (h : b ≠ 0) : ∃ j < 8, b.getLsbD j = true := by
  by_contra hno
  refine h (BitVec.eq_of_getLsbD_eq fun j hj => ?_)
  exact (Bool.eq_false_iff.mpr fun hb => hno ⟨j, hj, hb⟩).trans BitVec.getLsbD_zero.symm

/-- A sprite of at most 32 rows has a bit of 1 on some pixel exactly when it has a byte other than 0. -/
theorem exists_spriteBit_iff {bs : List Byte} (hbs : bs.length ≤ 32) (X Y : Nat) :
    (∃ px py, spriteBit bs X Y px py = true) ↔ ∃ r < bs.length, bs.getD r 0 ≠ 0 := by
  constructor
  · rintro ⟨px, py, h⟩
    simp only [spriteBit, Bool.and_eq_true, decide_eq_true_eq] at h
    obtain ⟨⟨-, hr⟩, hbit⟩ := h
    refine ⟨_, hr, fun h0 => ?_⟩
    rw [h0] at hbit
    exact Bool.false_ne_true (BitVec.getLsbD_zero.symm.trans hbit)
  · rintro ⟨r, hr, hne⟩
    obtain ⟨j, hj, hbit⟩ := exists_getLsbD_of_ne_zero hne
    have hcol : ((wrapColumn (X + (7 - j))).val + 64 - X % 64) % 64 = 7 - j := by
      simp only [wrapColumn]
      omega
    have hrow : ((wrapRow (Y + r)).val + 32 - Y % 32) % 32 = r := by
      simp only [wrapRow]
      omega
    refine ⟨wrapColumn (X + (7 - j)), wrapRow (Y + r), ?_⟩
    simp only [spriteBit, hcol, hrow, hr, Nat.sub_sub_self (Nat.le_of_lt_succ hj), hbit, decide_true, Bool.and_true]
    exact decide_eq_true (by omega)

/-- The sprite of a draw has a bit of 1 exactly when one of its bytes is not 0. -/
theorem exists_spriteBits_iff (s : State) (x y : Reg) (n : Nibble) :
    (∃ px py, s.spriteBits x y n px py = true) ↔ ∃ r < n.toNat, Memory.read s.mem (s.dataAddr r) ≠ 0 := by
  rw [exists_spriteBit_iff (by rw [Memory.length_readBytes]; omega), Memory.length_readBytes]
  refine exists_congr fun r => and_congr_right fun hr => ?_
  rw [Memory.getD_readBytes _ _ _ hr]
  rfl

/-- Settles O48: the second draw finds the same sprite bits, and each pixel is the first screen XOR the bit. -/
theorem drawingTwiceRestoresTheScreen : Obligations.DrawingTwiceRestoresTheScreen := by
  intro x y n s hx hy h bit
  let t : State := State.setFlag { s with screen := (s.sprite x y n).1 } (s.sprite x y n).2
  have hbits : t.spriteBits x y n = bit := by
    have hrx : t.reg x = s.reg x := (State.reg_setFlag ..).trans (if_neg (Ne.symm hx))
    have hry : t.reg y = s.reg y := (State.reg_setFlag ..).trans (if_neg (Ne.symm hy))
    rw [State.spriteBits, hrx, hry]
    rfl
  have hscreen (px py) : t.screen.at px py = (s.screen.at px py ^^ bit px py) := at_sprite s x y n px py
  have hfirst : t.reg 15 = flagByte (s.sprite x y n).2 := State.reg_flag_setFlag ..
  have hsecond : flagByte (t.sprite x y n).2 = 1 ↔ ∃ px py, bit px py = true ∧ s.screen.at px py = false := by
    rw [flagByte_eq_one_iff, sprite_flag_iff, hbits]
    refine exists_congr fun px => exists_congr fun py => and_congr_right fun hb => ?_
    rw [hscreen, hb, Bool.xor_true, Bool.not_eq_true']
  refine ⟨t, _, exec_drw_of_le h, exec_drw_of_le (s := t) h, Screen.ext_at fun px py => ?_, ?_, fun hmiss => ?_⟩
  · rw [State.setFlag_screen, at_sprite, hbits, hscreen, Bool.xor_assoc, Bool.xor_self, Bool.xor_false]
  · rw [State.reg_flag_setFlag, hsecond]
  · have hoff : ∀ px py, bit px py = true → s.screen.at px py = false := by
      intro px py hb
      rw [← Bool.not_eq_true]
      intro hon
      have : (s.sprite x y n).2 = true := (sprite_flag_iff s x y n).mpr ⟨px, py, hb, hon⟩
      rw [hfirst, this] at hmiss
      exact absurd hmiss (by decide)
    rw [State.reg_flag_setFlag, hsecond, ← exists_spriteBits_iff s x y]
    exact exists_congr fun px => exists_congr fun py => and_iff_left_of_imp (hoff px py)

end Sys2Proof.Machine
